-- ==== Sys2Proof/Word.lean ====
section
/-! DEFINITION. The word types of the block (00_scope.md R7): every value is unsigned, bit 0 least significant. -/

namespace Sys2Proof

/-- A byte, 8 bits (R7). -/
abbrev Byte := BitVec 8

/-- A command word or a response data word, 32 bits (20_memory.md R44). -/
abbrev Word := BitVec 32

/-- The checksum register, `CRC_WIDTH = 16` bits (00_scope.md R4, R7). -/
abbrev Crc := BitVec 16

end Sys2Proof
end

