-- ==== Sys2Proof/Syntax.lean ====
section
/-! DEFINITION. The commands: one constructor per row of spec/opcode_table.json (30_encoding.md R66). -/

namespace Sys2Proof

/-- A command. `ch` is the channel number `w[23:16]` and `data` the byte `w[7:0]` (30_encoding.md R65). -/
inductive Instr where
  /-- NOP, 41_channel_control.md R130. -/
  | nop
  /-- FEED, 40_feed.md R100. -/
  | feed (ch data : Byte)
  /-- CHRST, 41_channel_control.md R132. -/
  | chrst (ch : Byte)
  /-- RDSTAT, 42_status_reads.md R140. -/
  | rdstat (ch : Byte)
  /-- RDCRC, 42_status_reads.md R142. -/
  | rdcrc (ch : Byte)
  /-- RDDROP, 42_status_reads.md R144. -/
  | rddrop (ch : Byte)
  /-- RDHDR, 42_status_reads.md R146. -/
  | rdhdr (ch : Byte)
  deriving DecidableEq, Repr

/-- The channel a command names; NOP names none (30_encoding.md R67). -/
def Instr.channel? : Instr → Option Byte
  | .nop => none
  | .feed ch _ => some ch
  | .chrst ch => some ch
  | .rdstat ch => some ch
  | .rdcrc ch => some ch
  | .rddrop ch => some ch
  | .rdhdr ch => some ch

end Sys2Proof
end

