-- ==== Sys2Proof/Decode.lean ====
section
/-! DEFINITION. The decoder, total on any command word and rejecting by name, and after it the encoder
(30_encoding.md R64 to R68). A command word is presented whole, so no byte order enters (20_memory.md R44, log 15). -/

namespace Sys2Proof

/-- Why a word is no command (30_encoding.md R67). -/
inductive DecodeError where
  /-- `OP` in 0x7..0xF. -/
  | illegalOpcode
  /-- A nonzero bit in a field that R66 says must be 0. -/
  | reservedField
  deriving DecidableEq, Repr

/-- `OP`, bits 31:28 (R64). -/
def opField (w : Word) : BitVec 4 := w.extractLsb' 28 4

/-- `RSV1`, bits 27:24 (R64). -/
def rsv1Field (w : Word) : BitVec 4 := w.extractLsb' 24 4

/-- `CH`, bits 23:16 (R64). -/
def chField (w : Word) : Byte := w.extractLsb' 16 8

/-- `RSV0`, bits 15:8 (R64). -/
def rsv0Field (w : Word) : Byte := w.extractLsb' 8 8

/-- `DATA`, bits 7:0 (R64). -/
def dataField (w : Word) : Byte := w.extractLsb' 0 8

/-- A word whose `RSV1`, `RSV0` and `DATA` must be 0, as for CHRST and the reads (R66). -/
def decodeChannelOnly (w : Word) (mk : Byte → Instr) : Except DecodeError Instr :=
  if rsv1Field w = 0#4 ∧ rsv0Field w = 0#8 ∧ dataField w = 0#8 then .ok (mk (chField w))
  else .error .reservedField

/-- Decoding of one command word: the opcode map of R66, ILLEGAL_OPCODE before RESERVED_FIELD (60_exceptions.md R164). -/
def decode (w : Word) : Except DecodeError Instr :=
  match (opField w).toNat with
  | 0 =>
    if rsv1Field w = 0#4 ∧ chField w = 0#8 ∧ rsv0Field w = 0#8 ∧ dataField w = 0#8 then .ok .nop
    else .error .reservedField
  | 1 =>
    if rsv1Field w = 0#4 ∧ rsv0Field w = 0#8 then .ok (.feed (chField w) (dataField w))
    else .error .reservedField
  | 2 => decodeChannelOnly w .chrst
  | 3 => decodeChannelOnly w .rdstat
  | 4 => decodeChannelOnly w .rdcrc
  | 5 => decodeChannelOnly w .rddrop
  | 6 => decodeChannelOnly w .rdhdr
  | _ => .error .illegalOpcode

/-- A clean word from its opcode, channel and byte, `RSV1` and `RSV0` being 0 (R64, R76: `{OP, 0x0, ch, 0x00, byte}`). -/
def mkWord (op : BitVec 4) (ch data : Byte) : Word :=
  op ++ 0#4 ++ ch ++ 0#8 ++ data

/-- The opcode of each command (R66). -/
def Instr.opcode : Instr → BitVec 4
  | .nop => 0x0#4
  | .feed _ _ => 0x1#4
  | .chrst _ => 0x2#4
  | .rdstat _ => 0x3#4
  | .rdcrc _ => 0x4#4
  | .rddrop _ => 0x5#4
  | .rdhdr _ => 0x6#4

/-- The word of a command (R64, R66, R76). -/
def encode (i : Instr) : Word :=
  match i with
  | .nop => mkWord i.opcode 0#8 0#8
  | .feed ch data => mkWord i.opcode ch data
  | .chrst ch => mkWord i.opcode ch 0#8
  | .rdstat ch => mkWord i.opcode ch 0#8
  | .rdcrc ch => mkWord i.opcode ch 0#8
  | .rddrop ch => mkWord i.opcode ch 0#8
  | .rdhdr ch => mkWord i.opcode ch 0#8

/-- The command the decoder reads from the word whose low `nbits` bits are those of `w`, the bits above being 0. -/
def decodeTableWord (nbits w : Nat) : Option Instr :=
  match decode (BitVec.ofNat 32 (w % 2 ^ nbits)) with
  | .ok i => some i
  | .error _ => none

/-- A row of the opcode map as spec/opcode_table.json writes it: mnemonic, match and mask. -/
structure OpcodeRow where
  mnemonic : String
  word : Word
  mask : Word
  deriving DecidableEq, Repr

/-- spec/opcode_table.json, row by row. -/
def opcodeTable : List OpcodeRow :=
  [⟨"NOP", 0x00000000#32, 0xFFFFFFFF#32⟩,
   ⟨"FEED", 0x10000000#32, 0xFF00FF00#32⟩,
   ⟨"CHRST", 0x20000000#32, 0xFF00FFFF#32⟩,
   ⟨"RDSTAT", 0x30000000#32, 0xFF00FFFF#32⟩,
   ⟨"RDCRC", 0x40000000#32, 0xFF00FFFF#32⟩,
   ⟨"RDDROP", 0x50000000#32, 0xFF00FFFF#32⟩,
   ⟨"RDHDR", 0x60000000#32, 0xFF00FFFF#32⟩]

/-- The mnemonic of each command (R66). -/
def Instr.mnemonic : Instr → String
  | .nop => "NOP"
  | .feed _ _ => "FEED"
  | .chrst _ => "CHRST"
  | .rdstat _ => "RDSTAT"
  | .rdcrc _ => "RDCRC"
  | .rddrop _ => "RDDROP"
  | .rdhdr _ => "RDHDR"

end Sys2Proof
end

