-- ==== Sys2Proof/Config.lean ====
section
/-! DEFINITION. The parameters of 00_scope.md R4: `NUM_CHANNELS`, `START_MARKER` and `REGISTRY`, which the spec leaves
OPEN, and the values `State.reset` gives them. -/

namespace Sys2Proof

/-- What the parser uses of a message descriptor: `payload_length` and `crc_extra` (00_scope.md R4, R11). -/
structure Descriptor where
  payloadLength : Byte
  crcExtra : Byte
  deriving DecidableEq, Repr

/-- One populated entry of the descriptor ROM: the message id and its descriptor. -/
structure RegistryEntry where
  id : Byte
  desc : Descriptor
  deriving DecidableEq, Repr

/-- `REGISTRY` (R4): the ids that are `Some`, each with its descriptor; an id that is not listed is `None`. -/
abbrev Registry := List RegistryEntry

/-- The OPEN parameters of R4, fixed before reset is released (70_reset_and_hazards.md R182). -/
structure Params where
  numChannels : Nat
  startMarker : Byte
  registry : Registry
  deriving DecidableEq, Repr

/-- The test configuration of 95_test_vectors.md section 1.
DESIGN CHOICE (log 2), unsafe: the spec leaves the parameters OPEN; `State.reset` needs some, and these are the spec's example. -/
def Params.testConfiguration : Params where
  numChannels := 2
  startMarker := 0xFE#8
  registry :=
    [⟨0#8, 0#8, 50#8⟩, ⟨42#8, 3#8, 77#8⟩, ⟨185#8, 1#8, 145#8⟩, ⟨200#8, 255#8, 9#8⟩]

end Sys2Proof
end

