-- ==== Sys2Proof/Machine/State.lean ====
section
/-! DEFINITION. The state of the block (10_state.md R20 to R37), its response record (30_encoding.md R69 to R71), the
reasons a step stops, and the state after reset (70_reset_and_hazards.md R180). -/

namespace Sys2Proof.Machine

/-- A payload buffer: the (index, byte) pairs that differ from what an unlisted index reads as, indices strictly rising
(10_state.md R30; 20_memory.md R40; log 3). -/
abbrev Memory := List Host.Cell

/-- The state register and payload buffer of one channel (10_state.md R20). -/
structure Channel where
  /-- `PHASE`, 4 bits, encoded as in R21. -/
  phase : BitVec 4
  /-- `CRC`, the running checksum (R23). -/
  crc : Crc
  /-- `LEN`, the expected payload length (R24). -/
  len : Byte
  /-- `CNT`, the payload bytes taken so far (R25). -/
  cnt : Byte
  /-- `SEQ` (R26). -/
  seq : Byte
  /-- `SYS` (R26). -/
  sys : Byte
  /-- `COMP` (R26). -/
  comp : Byte
  /-- `MSGID` (R26). -/
  msgid : Byte
  /-- `CKLO` (R27). -/
  cklo : Byte
  /-- `XTRA`, the latched `crc_extra` (R28). -/
  xtra : Byte
  /-- `DFOUND`, 1 bit (R28). -/
  dfound : Bool
  /-- `LENOK`, 1 bit (R28). -/
  lenok : Bool
  /-- `DROPS`, `DROP_BITS = 32` bits (R29). -/
  drops : BitVec 32
  /-- `PB[c]`, the payload buffer (R30). -/
  pb : Memory
  deriving DecidableEq, Repr

/-- The command errors of 60_exceptions.md R162. -/
inductive CmdError where
  /-- `OP` in 0x7..0xF. -/
  | illegalOpcode
  /-- A field that must be 0 is not. -/
  | reservedField
  /-- `CH >= NUM_CHANNELS`. -/
  | badChannel
  deriving DecidableEq, Repr

/-- The frame record of a `FRAME_READY` response (30_encoding.md R71). -/
structure Frame where
  startMarker : Byte
  payloadLength : Byte
  sequence : Byte
  systemId : Byte
  componentId : Byte
  messageId : Byte
  payload : List Byte
  checksum : BitVec 16
  deriving DecidableEq, Repr

/-- The outcome of one FEED (00_scope.md R11): the source's `ParseOutcome`. The one reason of a rejection is
`CHECKSUM_MISMATCH` (30_encoding.md R70). -/
inductive ParseOutcome where
  | incomplete
  | frameReady (f : Frame)
  | frameRejected
  deriving DecidableEq, Repr

/-- `KIND` of a response (30_encoding.md R70). -/
inductive Kind where
  | ok
  | frameReady
  | frameRejected
  | cmdError
  deriving DecidableEq, Repr

/-- The response record (30_encoding.md R69). -/
structure Response where
  kind : Kind
  code : Byte
  rch : Byte
  rdata : Word
  frame : Option Frame
  deriving DecidableEq, Repr

/-- What the outside world does to the block at a step boundary (log 4, log 8). -/
inductive PortEvent where
  /-- The host presents the command word `w` (30_encoding.md R64). -/
  | command (w : Word)
  /-- Reset is asserted (70_reset_and_hazards.md R180). -/
  | reset
  deriving DecidableEq, Repr

/-- Why the machine stops. The block itself never halts (70_reset_and_hazards.md R190): both are faults of the model in
states that no run from reset reaches (10_state.md R37). -/
inductive Fault where
  /-- Raised by FEED on a channel whose `PHASE` is 9 to 15, as 60_exceptions.md R166 asks. Safe. -/
  | unusedPhase
  /-- Raised by FEED in IN_PAYLOAD when `CNT = 255`: `PB[c][0..254]` has no such byte (40_feed.md R108, log 6). Safe. -/
  | payloadIndex
  deriving DecidableEq, Repr

/-- Why the model has no meaning for a command. -/
inductive Refusal where
  /-- Raised by an arm of `exec` whose command is not modelled yet; no arm does. Safe. -/
  | notModelled (mnemonic : String)
  deriving DecidableEq, Repr

/-- The state of the block. `startMarker`, `registry` and the length of `channels` are the parameters of 00_scope.md R4
(log 1); `port` and `resp` are the model's own (log 4). -/
structure State where
  /-- `START_MARKER` (R4). -/
  startMarker : Byte
  /-- `REGISTRY` (R4). -/
  registry : Registry
  /-- The channels `0..NUM_CHANNELS-1` (R20); their number is `NUM_CHANNELS`. -/
  channels : List Channel
  /-- The port events still to come, oldest first. -/
  port : List PortEvent
  /-- What the response port carried in the last step. -/
  resp : Option Response
  deriving DecidableEq, Repr

/-- A channel after reset (10_state.md R20, 70_reset_and_hazards.md R180). The contents of `pb` are unspecified there:
DESIGN CHOICE (log 3), unsafe. -/
def Channel.reset : Channel where
  phase := 0#4
  crc := 0xFFFF#16
  len := 0#8
  cnt := 0#8
  seq := 0#8
  sys := 0#8
  comp := 0#8
  msgid := 0#8
  cklo := 0#8
  xtra := 0#8
  dfound := false
  lenok := false
  drops := 0#32
  pb := []

/-- The block after power-up reset with the parameters `p` (70_reset_and_hazards.md R180, R182). -/
def State.resetWith (p : Params) : State where
  startMarker := p.startMarker
  registry := p.registry
  channels := List.replicate p.numChannels Channel.reset
  port := []
  resp := none

/-- The block after reset, with the parameters of the spec's test configuration (log 2). -/
def State.reset : State := State.resetWith Params.testConfiguration

/-- The parameters of 00_scope.md R4, read back from a state. -/
def State.params (s : State) : Params where
  numChannels := s.channels.length
  startMarker := s.startMarker
  registry := s.registry

end Sys2Proof.Machine
end

