-- ==== Sys2Proof/WellFormed.lean ====
section
/-! DEFINITION. What makes a command and a parameter set well formed. -/

namespace Sys2Proof

/-- A command is well formed for a block of `n` channels when the channel it names is valid, `c < NUM_CHANNELS`
(30_encoding.md R65, 20_memory.md R41). Both operands fit their 8-bit fields by their types. -/
def Instr.wf (n : Nat) (i : Instr) : Bool :=
  match i.channel? with
  | none => true
  | some c => decide (c.toNat < n)

/-- `REGISTRY` is in canonical form: its ids strictly rise, so each id has at most one descriptor (60_exceptions.md R167)
and equal ROMs are equal lists (log 12). -/
abbrev Registry.wf (r : Registry) : Prop :=
  r.Pairwise fun a b => a.id.toNat < b.id.toNat

/-- The ranges of 00_scope.md R4: `NUM_CHANNELS` in 1..256, and `REGISTRY` a function of the id. -/
abbrev Params.wf (p : Params) : Prop :=
  1 ≤ p.numChannels ∧ p.numChannels ≤ 256 ∧ Registry.wf p.registry

end Sys2Proof
end

