-- ==== Sys2Proof/Machine/Registry.lean ====
section
/-! DEFINITION. The message descriptor ROM: reading it, and building it from a catalog (00_scope.md R4; 60_exceptions.md
R167; 92_eei_decisions.md D4). -/

namespace Sys2Proof.Machine

/-- `REGISTRY[id]` (00_scope.md R8): no side effect. -/
def registryLookup (r : Registry) (id : Byte) : Option Descriptor :=
  match r with
  | [] => none
  | e :: rest => if e.id = id then some e.desc else registryLookup rest id

/-- Placing one new descriptor in a ROM at the place its id gives it (log 12). -/
def registryInsert (r : Registry) (e : RegistryEntry) : Registry :=
  match r with
  | [] => [e]
  | f :: rest => if e.id.toNat < f.id.toNat then e :: f :: rest else f :: registryInsert rest e

/-- The source's `register`: the same descriptor again changes nothing, and a different one for a registered id is
`SchemaConflict` (D4, R167); the result is `none` then. -/
def registryRegister (r : Registry) (e : RegistryEntry) : Option Registry :=
  match registryLookup r e.id with
  | none => some (registryInsert r e)
  | some d => if d = e.desc then some r else none

/-- The `REGISTRY` parameter of a catalog: `none` when the catalog holds a conflict, since no such parameter can be built
(R167). -/
def registryOfCatalog (catalog : List RegistryEntry) : Option Registry :=
  catalog.foldl (fun acc e => acc.bind fun r => registryRegister r e) (some [])

end Sys2Proof.Machine
end

