-- ==== Sys2Proof/Machine/Flags.lean ====
section
/-! DEFINITION. The checksum (00_scope.md R9, R10), the descriptor latch flags (10_state.md R28) and the validity test of a
frame (40_feed.md R112). -/

namespace Sys2Proof.Machine

/-- The initial value of the checksum (00_scope.md R9). -/
def crcInit : Crc := 0xFFFF#16

/-- One of the eight shifts of `crc_acc` (R9): the polynomial 0x1021 reflected is 0x8408.
PRESUMED by the spec itself (93_implementation_defined.md G1, I9; log 11). -/
def crcShift (crc : Crc) : Crc :=
  if crc.getLsbD 0 then (crc >>> 1) ^^^ 0x8408#16 else crc >>> 1

/-- `n` shifts. -/
def crcShifts (n : Nat) (crc : Crc) : Crc :=
  match n with
  | 0 => crc
  | k + 1 => crcShifts k (crcShift crc)

/-- `crc_acc(crc, b)` (R9). -/
def crcAcc (crc : Crc) (b : Byte) : Crc :=
  crcShifts 8 (crc ^^^ b.setWidth 16)

/-- `crc_acc` over a list of bytes, in order. -/
def crcOver (crc : Crc) (bs : List Byte) : Crc :=
  bs.foldl crcAcc crc

/-- The byte-wise form of `crc_acc` that R9 gives beside the loop; the block uses the loop. -/
def crcAccBytewise (crc : Crc) (b : Byte) : Crc :=
  let t0 : Byte := b ^^^ crc.setWidth 8
  let t : Byte := t0 ^^^ (t0 <<< 4)
  let t16 : Crc := t.setWidth 16
  (crc >>> 8) ^^^ (t16 <<< 8) ^^^ (t16 <<< 3) ^^^ (t16 >>> 4)

/-- `FrameCRC(len, seq, sys, comp, mid, payload, extra)` (00_scope.md R10). -/
def frameCrc (len seq sys comp mid : Byte) (payload : List Byte) (extra : Byte) : Crc :=
  crcAcc (crcOver crcInit ([len, seq, sys, comp, mid] ++ payload)) extra

/-- What MSG_ID latches, `(DFOUND, XTRA, LENOK)`, from the ROM's entry and `LEN` (10_state.md R28, 40_feed.md R107). -/
def latchOf (d : Option Descriptor) (len : Byte) : Bool × Byte × Bool :=
  match d with
  | some e => (true, e.crcExtra, decide (e.payloadLength = len))
  | none => (false, 0#8, false)

/-- `{b, CKLO}`, the received checksum (20_memory.md R43). -/
def receivedChecksum (ch : Channel) (b : Byte) : BitVec 16 := b ++ ch.cklo

/-- `Valid(c, b)` (40_feed.md R112). -/
def validFrame (ch : Channel) (b : Byte) : Bool :=
  ch.dfound && ch.lenok && decide (receivedChecksum ch b = ch.crc)

end Sys2Proof.Machine
end

