-- ==== Sys2Proof/Machine/Operands.lean ====
section
/-! DEFINITION. The encodings of the state a command reads: the phases (10_state.md R21), the response kinds
(30_encoding.md R70) and the status words (R72 to R75). -/

namespace Sys2Proof.Machine

/-- The nine phases, each named by the byte the channel takes next (10_state.md R21). -/
inductive Phase where
  | idle
  | gotLength
  | gotSequence
  | gotSystemId
  | gotComponentId
  | gotMessageId
  | inPayload
  | gotChecksumLow
  | gotChecksumHigh
  deriving DecidableEq, Repr

/-- The encoding of a phase (R21). -/
def Phase.code : Phase → BitVec 4
  | .idle => 0#4
  | .gotLength => 1#4
  | .gotSequence => 2#4
  | .gotSystemId => 3#4
  | .gotComponentId => 4#4
  | .gotMessageId => 5#4
  | .inPayload => 6#4
  | .gotChecksumLow => 7#4
  | .gotChecksumHigh => 8#4

/-- The phase a value of `PHASE` encodes; 9 to 15 encode none (R21). -/
def phaseOf (v : BitVec 4) : Option Phase :=
  match v.toNat with
  | 0 => some .idle
  | 1 => some .gotLength
  | 2 => some .gotSequence
  | 3 => some .gotSystemId
  | 4 => some .gotComponentId
  | 5 => some .gotMessageId
  | 6 => some .inPayload
  | 7 => some .gotChecksumLow
  | 8 => some .gotChecksumHigh
  | _ => none

/-- `KIND` as its 2 bits (30_encoding.md R70). -/
def Kind.bits : Kind → BitVec 2
  | .ok => 0#2
  | .frameReady => 1#2
  | .frameRejected => 2#2
  | .cmdError => 3#2

/-- `CODE` of a command error (30_encoding.md R70). -/
def CmdError.code : CmdError → Byte
  | .illegalOpcode => 0x01#8
  | .reservedField => 0x02#8
  | .badChannel => 0x03#8

/-- `CODE` of `CHECKSUM_MISMATCH`, the only receive-time reason (30_encoding.md R70). -/
def checksumMismatchCode : Byte := 0x01#8

/-- A 1-bit field as a bit. -/
def flagBit (b : Bool) : BitVec 1 := BitVec.ofBool b

/-- The RDSTAT data word `{MSGID, LEN, CNT, 00b, LENOK, DFOUND, PHASE}` (30_encoding.md R72, 42_status_reads.md R140). -/
def statWord (ch : Channel) : Word :=
  ch.msgid ++ ch.len ++ ch.cnt ++ 0#2 ++ flagBit ch.lenok ++ flagBit ch.dfound ++ ch.phase

/-- The RDCRC data word `{XTRA, CKLO, CRC}` (30_encoding.md R73, 42_status_reads.md R142). -/
def crcWord (ch : Channel) : Word :=
  ch.xtra ++ ch.cklo ++ ch.crc

/-- The RDDROP data word (30_encoding.md R75, 42_status_reads.md R144). -/
def dropWord (ch : Channel) : Word := ch.drops

/-- The RDHDR data word `{0x00, COMP, SYS, SEQ}` (30_encoding.md R74, 42_status_reads.md R146). -/
def hdrWord (ch : Channel) : Word :=
  0x00#8 ++ ch.comp ++ ch.sys ++ ch.seq

end Sys2Proof.Machine
end

