-- ==== Sys2Proof/Machine/Ops.lean ====
section
/-! DEFINITION. The operations the commands share: the payload buffer, the channels, the response port, raising a command
error, ClearFrame and reset. -/

namespace Sys2Proof.Machine

/-! ### The payload buffer (10_state.md R30, 20_memory.md R40) -/

/-- The bytes of one payload buffer, `MAX_PAYLOAD` (00_scope.md R4): indices 0..254. -/
def pbSize : Nat := 255

/-- What a byte of a payload buffer that nothing has written reads as.
DESIGN CHOICE (log 3), unsafe: the spec leaves it unspecified and lets no command observe it. -/
def Memory.unlisted : Byte := 0x00#8

/-- `PBRead` at index `a` (00_scope.md R8). -/
def Memory.read (m : Memory) (a : Nat) : Byte :=
  match m with
  | [] => Memory.unlisted
  | (k, v) :: rest => if k = a then v else Memory.read rest a

/-- The buffer with index `a` no longer listed. -/
def Memory.unlist (m : Memory) (a : Nat) : Memory :=
  m.filter fun c => decide (c.1 ≠ a)

/-- Listing index `a`, before the first higher index. -/
def Memory.list (m : Memory) (a : Nat) (v : Byte) : Memory :=
  match m with
  | [] => [(a, v)]
  | (k, x) :: rest => if a < k then (a, v) :: (k, x) :: rest else (k, x) :: Memory.list rest a v

/-- `PBWrite` of `v` at index `a` (00_scope.md R8), keeping the canonical form. -/
def Memory.write (m : Memory) (a : Nat) (v : Byte) : Memory :=
  if v = Memory.unlisted then m.unlist a else (m.unlist a).list a v

/-- The canonical form of a payload buffer: indices strictly rise and stay below 255, and no entry equals what an unlisted
index reads as. -/
abbrev Memory.wf (m : Memory) : Prop :=
  m.Pairwise (fun p q => p.1 < q.1) ∧ ∀ c ∈ m, c.1 < pbSize ∧ c.2 ≠ Memory.unlisted

/-- The first `n` bytes of a payload buffer, in order. -/
def Memory.take (m : Memory) (n : Nat) : List Byte :=
  (List.range n).map fun i => m.read i

/-! ### Channels -/

/-- `NUM_CHANNELS` (00_scope.md R4). -/
def State.numChannels (s : State) : Nat := s.channels.length

/-- Channel `c`, when `c < NUM_CHANNELS` (20_memory.md R41). -/
def State.channel? (s : State) (c : Byte) : Option Channel := s.channels[c.toNat]?

/-- Replacing channel `c`. -/
def State.setChannel (s : State) (c : Byte) (ch : Channel) : State :=
  { s with channels := s.channels.set c.toNat ch }

/-- `sat_inc` (00_scope.md R8). -/
def satInc (v : BitVec 32) : BitVec 32 :=
  if v.toNat < 2 ^ 32 - 1 then v + 1#32 else v

/-- `ClearFrame(c)` (10_state.md R31): `DROPS` and `PB[c]` are kept. -/
def clearFrame (ch : Channel) : Channel :=
  { ch with
    phase := Phase.idle.code
    crc := crcInit
    len := 0#8, cnt := 0#8
    seq := 0#8, sys := 0#8, comp := 0#8, msgid := 0#8
    cklo := 0#8, xtra := 0#8, dfound := false, lenok := false }

/-! ### Responses (30_encoding.md R69, R70) -/

/-- `OK` with read data. -/
def Response.okData (c : Byte) (d : Word) : Response :=
  { kind := .ok, code := 0x00#8, rch := c, rdata := d, frame := none }

/-- `OK` without read data; for FEED the outcome `Incomplete`. -/
def Response.done (c : Byte) : Response := Response.okData c 0#32

/-- `FRAME_READY(f)`. -/
def Response.ready (c : Byte) (f : Frame) : Response :=
  { kind := .frameReady, code := 0x00#8, rch := c, rdata := 0#32, frame := some f }

/-- `FRAME_REJECTED(CHECKSUM_MISMATCH)`. -/
def Response.rejected (c : Byte) : Response :=
  { kind := .frameRejected, code := checksumMismatchCode, rch := c, rdata := 0#32, frame := none }

/-- `CMD_ERROR` with the error's code. -/
def Response.error (c : Byte) (e : CmdError) : Response :=
  { kind := .cmdError, code := e.code, rch := c, rdata := 0#32, frame := none }

/-- The response of one FEED with the outcome `o` (40_feed.md R100). -/
def Response.ofOutcome (c : Byte) (o : ParseOutcome) : Response :=
  match o with
  | .incomplete => Response.done c
  | .frameReady f => Response.ready c f
  | .frameRejected => Response.rejected c

/-- `emit` (00_scope.md R8): the response port carries `r` in this step. -/
def State.emit (s : State) (r : Response) : State := { s with resp := some r }

/-! ### Raising a command error, and naming a channel -/

/-- `raise CmdError(e)` (00_scope.md R8, 60_exceptions.md R162): the response is CMD_ERROR, `RCH` is the word's bits 23:16
and nothing else changes. Execution then goes on with the next command (R169). -/
def raiseCmdError (e : CmdError) (rch : Byte) (s : State) : Host.Outcome State Fault Refusal :=
  .next (s.emit (Response.error rch e))

/-- The error a word raises when the decoder rejects it (30_encoding.md R67). -/
def cmdErrorOf : DecodeError → CmdError
  | .illegalOpcode => .illegalOpcode
  | .reservedField => .reservedField

/-- A command on channel `c`: BAD_CHANNEL when there is no such channel (60_exceptions.md R163, log 7). -/
def withChannel (c : Byte) (s : State) (k : Channel → Host.Outcome State Fault Refusal) :
    Host.Outcome State Fault Refusal :=
  match s.channel? c with
  | some ch => k ch
  | none => raiseCmdError .badChannel c s

/-- `READ(w, f)` (42_status_reads.md): answers `OK` with `RDATA = f(c)`; no state change. -/
def readChannel (c : Byte) (f : Channel → Word) (s : State) : Host.Outcome State Fault Refusal :=
  withChannel c s fun ch => .next (s.emit (Response.okData c (f ch)))

/-! ### Reset -/

/-- One channel at reset: every field at its reset value (70_reset_and_hazards.md R180), the payload buffer as it was
(10_state.md R30: reset does not clear it; log 8). -/
def resetChannel (ch : Channel) : Channel := { Channel.reset with pb := ch.pb }

/-- Reset asserted on a running block (R180): every channel is reset and no response is produced; the parameters stay
(10_state.md R33). -/
def applyReset (s : State) : State :=
  { s with channels := s.channels.map resetChannel, resp := none }

end Sys2Proof.Machine
end

