-- ==== Sys2Proof/Machine/Control.lean ====
section
/-! DEFINITION. NOP and CHRST (41_channel_control.md). The reserved-field checks of their words are the decoder's. -/

namespace Sys2Proof.Machine

/-- NOP (R130): `OK` with `RCH = 0` and `RDATA = 0`. -/
def execNop (s : State) : Host.Outcome State Fault Refusal :=
  .next (s.emit (Response.done 0#8))

/-- CHRST (R132): ClearFrame on the channel, then `OK`. -/
def execChrst (c : Byte) (s : State) : Host.Outcome State Fault Refusal :=
  withChannel c s fun ch => .next ((s.setChannel c (clearFrame ch)).emit (Response.done c))

end Sys2Proof.Machine
end

