-- ==== Sys2Proof/Machine/Feed.lean ====
section
/-! DEFINITION. FEED, the byte-by-byte state machine (40_feed.md R100 to R113), one definition per transition rule. -/

namespace Sys2Proof.Machine

/-- What a FEED does to its channel: the channel after it and the outcome, or a fault of the model. -/
abbrev FeedResult := Except Fault (Channel × ParseOutcome)

/-- IDLE: a start marker begins a candidate frame (R101), and any other byte is discarded (R102). -/
def feedIdle (marker b : Byte) (ch : Channel) : FeedResult :=
  if b = marker then .ok ({ ch with crc := crcInit, phase := Phase.gotLength.code }, .incomplete)
  else .ok (ch, .incomplete)

/-- GOT_LENGTH (R103). -/
def feedLength (b : Byte) (ch : Channel) : FeedResult :=
  .ok ({ ch with len := b, crc := crcAcc ch.crc b, phase := Phase.gotSequence.code }, .incomplete)

/-- GOT_SEQUENCE (R104). -/
def feedSequence (b : Byte) (ch : Channel) : FeedResult :=
  .ok ({ ch with seq := b, crc := crcAcc ch.crc b, phase := Phase.gotSystemId.code }, .incomplete)

/-- GOT_SYSTEM_ID (R105). -/
def feedSystemId (b : Byte) (ch : Channel) : FeedResult :=
  .ok ({ ch with sys := b, crc := crcAcc ch.crc b, phase := Phase.gotComponentId.code }, .incomplete)

/-- GOT_COMPONENT_ID (R106). -/
def feedComponentId (b : Byte) (ch : Channel) : FeedResult :=
  .ok ({ ch with comp := b, crc := crcAcc ch.crc b, phase := Phase.gotMessageId.code }, .incomplete)

/-- AbsorbExtra (R110). -/
def absorbExtra (ch : Channel) : Channel :=
  if ch.dfound then { ch with crc := crcAcc ch.crc ch.xtra } else ch

/-- MSG_ID taken: stored, absorbed, and the descriptor latched (R107, 10_state.md R28). -/
def takeMessageId (reg : Registry) (b : Byte) (ch : Channel) : Channel :=
  { ch with
    msgid := b
    crc := crcAcc ch.crc b
    dfound := (latchOf (registryLookup reg b) ch.len).1
    xtra := (latchOf (registryLookup reg b) ch.len).2.1
    lenok := (latchOf (registryLookup reg b) ch.len).2.2 }

/-- GOT_MESSAGE_ID (R107): on to the payload, or to the checksum when `LEN = 0`. -/
def feedMessageId (reg : Registry) (b : Byte) (ch : Channel) : FeedResult :=
  if ch.len = 0#8 then
    .ok ({ absorbExtra (takeMessageId reg b ch) with phase := Phase.gotChecksumLow.code }, .incomplete)
  else
    .ok ({ takeMessageId reg b ch with cnt := 0#8, phase := Phase.inPayload.code }, .incomplete)

/-- IN_PAYLOAD, store (R108). -/
def payloadStore (b : Byte) (ch : Channel) : Channel :=
  { ch with pb := Memory.write ch.pb ch.cnt.toNat b, crc := crcAcc ch.crc b }

/-- IN_PAYLOAD, advance (R109). The comparison is of numbers: `CNT + 1` does not wrap. -/
def payloadAdvance (ch : Channel) : Channel :=
  if ch.cnt.toNat + 1 = ch.len.toNat then
    { absorbExtra ch with cnt := 0#8, phase := Phase.gotChecksumLow.code }
  else { ch with cnt := ch.cnt + 1#8 }

/-- IN_PAYLOAD (R108 then R109). An index that is no byte of `PB` faults (log 6). -/
def feedPayload (b : Byte) (ch : Channel) : FeedResult :=
  if ch.cnt.toNat < pbSize then .ok (payloadAdvance (payloadStore b ch), .incomplete)
  else .error .payloadIndex

/-- GOT_CHECKSUM_LOW (R111). -/
def feedChecksumLow (b : Byte) (ch : Channel) : FeedResult :=
  .ok ({ ch with cklo := b, phase := Phase.gotChecksumHigh.code }, .incomplete)

/-- The frame a channel has framed when CKSUM_HIGH is `b` (R112, 30_encoding.md R71). -/
def frameOf (marker b : Byte) (ch : Channel) : Frame where
  startMarker := marker
  payloadLength := ch.len
  sequence := ch.seq
  systemId := ch.sys
  componentId := ch.comp
  messageId := ch.msgid
  payload := Memory.take ch.pb ch.len.toNat
  checksum := receivedChecksum ch b

/-- GOT_CHECKSUM_HIGH: accept (R112) or reject and count (R113); either way ClearFrame. -/
def feedChecksumHigh (marker b : Byte) (ch : Channel) : FeedResult :=
  if validFrame ch b then .ok (clearFrame ch, .frameReady (frameOf marker b ch))
  else .ok (clearFrame { ch with drops := satInc ch.drops }, .frameRejected)

/-- One byte taken by a channel, by its phase (R100); phases 9 to 15 fault (60_exceptions.md R166). -/
def feedByte (marker : Byte) (reg : Registry) (b : Byte) (ch : Channel) : FeedResult :=
  match phaseOf ch.phase with
  | some .idle => feedIdle marker b ch
  | some .gotLength => feedLength b ch
  | some .gotSequence => feedSequence b ch
  | some .gotSystemId => feedSystemId b ch
  | some .gotComponentId => feedComponentId b ch
  | some .gotMessageId => feedMessageId reg b ch
  | some .inPayload => feedPayload b ch
  | some .gotChecksumLow => feedChecksumLow b ch
  | some .gotChecksumHigh => feedChecksumHigh marker b ch
  | none => .error .unusedPhase

/-- What a FEED on channel `c` leaves: the channel stored back and the response emitted, or the fault. -/
def feedOutcome (c : Byte) (s : State) (r : FeedResult) : Host.Outcome State Fault Refusal :=
  match r with
  | .ok (ch, o) => .next ((s.setChannel c ch).emit (Response.ofOutcome c o))
  | .error e => .fault e

/-- FEED (R100). -/
def execFeed (c b : Byte) (s : State) : Host.Outcome State Fault Refusal :=
  withChannel c s fun ch => feedOutcome c s (feedByte s.startMarker s.registry b ch)

end Sys2Proof.Machine
end

