-- ==== Sys2Proof/Machine/Reads.lean ====
section
/-! DEFINITION. The status reads (42_status_reads.md). The reserved-field checks of their words are the decoder's. -/

namespace Sys2Proof.Machine

/-- RDSTAT (R140). -/
def execRdstat (c : Byte) (s : State) : Host.Outcome State Fault Refusal := readChannel c statWord s

/-- RDCRC (R142). -/
def execRdcrc (c : Byte) (s : State) : Host.Outcome State Fault Refusal := readChannel c crcWord s

/-- RDDROP (R144). -/
def execRddrop (c : Byte) (s : State) : Host.Outcome State Fault Refusal := readChannel c dropWord s

/-- RDHDR (R146). -/
def execRdhdr (c : Byte) (s : State) : Host.Outcome State Fault Refusal := readChannel c hdrWord s

end Sys2Proof.Machine
end

