-- ==== Sys2Proof/Machine/Dispatch.lean ====
section
/-! DEFINITION. One arm per command, each a direct call of its meaning (30_encoding.md R66). -/

namespace Sys2Proof.Machine

def exec (i : Instr) (s : State) : Host.Outcome State Fault Refusal :=
  match i with
  | .nop => Sys2Proof.Machine.execNop s
  | .feed ch data => Sys2Proof.Machine.execFeed ch data s
  | .chrst ch => Sys2Proof.Machine.execChrst ch s
  | .rdstat ch => Sys2Proof.Machine.execRdstat ch s
  | .rdcrc ch => Sys2Proof.Machine.execRdcrc ch s
  | .rddrop ch => Sys2Proof.Machine.execRddrop ch s
  | .rdhdr ch => Sys2Proof.Machine.execRdhdr ch s

end Sys2Proof.Machine
end

