-- ==== Sys2Proof/Machine/Port.lean ====
section
/-! DEFINITION. The command port (20_memory.md R46, R48; 60_exceptions.md R160, R174): taking the next port event, executing
a command word, and presenting words to the port. -/

namespace Sys2Proof.Machine

/-- One command word, whole: its command, or the error its encoding raises (30_encoding.md R67, 60_exceptions.md R162). -/
def runWord (w : Word) (s : State) : Host.Outcome State Fault Refusal :=
  match decode w with
  | .ok i => exec i s
  | .error e => raiseCmdError (cmdErrorOf e) (chField w) s

/-- The next port event. With none pending the block holds its state (60_exceptions.md R174) and answers nothing, since
a response belongs to a command and is not kept (R160; log 4). -/
def takeEvent (s : State) : Host.Outcome State Fault Refusal :=
  match s.port with
  | [] => .next { s with resp := none }
  | .reset :: rest => .next (applyReset { s with port := rest })
  | .command w :: rest => runWord w { s with port := rest }

/-- The word `w` is the next the host presents, before whatever is pending (log 5). -/
def State.presentFirst (s : State) (w : Word) : State :=
  { s with port := .command w :: s.port }

/-- A block about to be presented exactly the command words `ws`, in order. -/
def State.present (s : State) (ws : List Word) : State :=
  { s with port := ws.map PortEvent.command }

/-- The FEED words that deliver the bytes `bs` to channel `c` (30_encoding.md R77, `feeds`). -/
def feedWords (c : Byte) (bs : List Byte) : List Word :=
  bs.map fun b => encode (.feed c b)

end Sys2Proof.Machine
end

