-- ==== Sys2Proof/Machine/Step.lean ====
section
/-! DEFINITION. One step: one port event, handled whole (20_memory.md R46, R48). -/

namespace Sys2Proof.Machine

/-- One step of the block. -/
def step (s : State) : Host.Outcome State Fault Refusal := takeEvent s

/-- `s` with the command word whose low `nbits` bits are those of `w`, the bits above being 0, as the next word the host
presents (log 5). -/
def State.withFetchWord (s : State) (nbits w : Nat) : State :=
  s.presentFirst (BitVec.ofNat 32 (w % 2 ^ nbits))

end Sys2Proof.Machine
end

