-- ==== Sys2Proof/Machine/Wire.lean ====
section
/-! DEFINITION. The wire frame (30_encoding.md R60 to R63): its layout, when it is well formed, and the reference encoder. -/

namespace Sys2Proof.Machine

/-- `WireBytes(len, seq, sys, comp, mid, payload, extra)` (R61): the `8 + len` bytes of a frame, checksum low byte first. -/
def wireBytes (marker len seq sys comp mid : Byte) (payload : List Byte) (extra : Byte) : List Byte :=
  let k := frameCrc len seq sys comp mid payload extra
  [marker, len, seq, sys, comp, mid] ++ payload ++ [k.extractLsb' 0 8, k.extractLsb' 8 8]

/-- The fields of a byte string laid out as R60: `8 + LEN` bytes. -/
def layoutFrame (bs : List Byte) : Option Frame :=
  match bs with
  | start :: len :: seq :: sys :: comp :: mid :: rest =>
    if rest.length = len.toNat + 2 then
      some
        { startMarker := start
          payloadLength := len
          sequence := seq
          systemId := sys
          componentId := comp
          messageId := mid
          payload := rest.take len.toNat
          checksum := rest.getD (len.toNat + 1) 0#8 ++ rest.getD len.toNat 0#8 }
    else none
  | _ => none

/-- `FrameCRC` of a frame's own fields with the seed `extra` (00_scope.md R10). -/
def Frame.crc (f : Frame) (extra : Byte) : Crc :=
  frameCrc f.payloadLength f.sequence f.systemId f.componentId f.messageId f.payload extra

/-- The conditions of R61 on a frame's fields. -/
def Frame.wellFormed (marker : Byte) (reg : Registry) (f : Frame) : Bool :=
  decide (f.startMarker = marker) &&
    match registryLookup reg f.messageId with
    | some d => decide (d.payloadLength = f.payloadLength) && decide (f.checksum = f.crc d.crcExtra)
    | none => false

/-- A well-formed frame for a block with these parameters (R61). -/
def wellFormedFrame (marker : Byte) (reg : Registry) (bs : List Byte) : Bool :=
  match layoutFrame bs with
  | some f => f.wellFormed marker reg
  | none => false

end Sys2Proof.Machine
end

