-- ==== Sys2Proof/Machine/Asm.lean ====
section
/-! DEFINITION. The assembler notation (30_encoding.md R76, R77; 92_eei_decisions.md D25): mnemonic lines, their operands,
the pseudo-instructions, and the text they are written in. It is the host's notation and no part of the block. -/

namespace Sys2Proof.Machine

/-- One line, its operands numbers as written. -/
inductive AsmLine where
  /-- A blank or comment-only line. -/
  | blank
  | nop
  | feed (ch byte : Nat)
  | chrst (ch : Nat)
  | rdstat (ch : Nat)
  | rdcrc (ch : Nat)
  | rddrop (ch : Nat)
  | rdhdr (ch : Nat)
  /-- `feeds`, each item a byte and how many copies of it. -/
  | feeds (ch : Nat) (items : List (Nat × Nat))
  /-- `feedframe`. -/
  | feedframe (ch len seq sys comp mid : Nat) (payload : List Nat) (extra : Nat)
  deriving DecidableEq, Repr

/-- An operand: a value that does not fit 8 bits is refused (R76). -/
def asmByte (n : Nat) : Option Byte :=
  if n < 256 then some (BitVec.ofNat 8 n) else none

/-- A list of operands. -/
def asmBytes (ns : List Nat) : Option (List Byte) :=
  match ns with
  | [] => some []
  | n :: rest =>
    match asmByte n, asmBytes rest with
    | some b, some bs => some (b :: bs)
    | _, _ => none

/-- The items of `feeds`: `<b>*<n>` stands for `n` copies of `b` (R77). -/
def asmItems (items : List (Nat × Nat)) : Option (List Byte) :=
  match items with
  | [] => some []
  | (b, n) :: rest =>
    match asmByte b, asmItems rest with
    | some x, some bs => some (List.replicate n x ++ bs)
    | _, _ => none

/-- `feeds ch, bs` (R77): one FEED a byte, in order. -/
def expandFeeds (c : Byte) (bs : List Byte) : List Instr :=
  bs.map fun b => Instr.feed c b

/-- A one-operand mnemonic. -/
def asmChannel (ch : Nat) (mk : Byte → Instr) : Option (List Instr) :=
  match asmByte ch with
  | some c => some [mk c]
  | none => none

/-- The commands of one line (R76, R77); `none` when the assembler refuses it. `marker` is `START_MARKER`. -/
def AsmLine.assemble (marker : Byte) : AsmLine → Option (List Instr)
  | .blank => some []
  | .nop => some [.nop]
  | .feed ch byte =>
    match asmByte ch, asmByte byte with
    | some c, some b => some [.feed c b]
    | _, _ => none
  | .chrst ch => asmChannel ch .chrst
  | .rdstat ch => asmChannel ch .rdstat
  | .rdcrc ch => asmChannel ch .rdcrc
  | .rddrop ch => asmChannel ch .rddrop
  | .rdhdr ch => asmChannel ch .rdhdr
  | .feeds ch items =>
    match asmByte ch, asmItems items with
    | some c, some bs => some (expandFeeds c bs)
    | _, _ => none
  | .feedframe ch len seq sys comp mid payload extra =>
    match asmByte ch, asmBytes [len, seq, sys, comp, mid, extra], asmBytes payload with
    | some c, some [l, sq, sy, co, mi, ex], some ps =>
      if ps.length = l.toNat then some (expandFeeds c (wireBytes marker l sq sy co mi ps ex)) else none
    | _, _, _ => none

/-- The command words of one line. -/
def AsmLine.words (marker : Byte) (l : AsmLine) : Option (List Word) :=
  (l.assemble marker).map fun is => is.map encode

/-! ### The text of a line (log 13) -/

/-- A token of a line. -/
inductive AsmToken where
  | name (cs : List Char)
  | number (n : Nat)
  | comma
  | star
  | open_
  | close
  deriving DecidableEq, Repr

/-- The value of a digit in base `base`. -/
def asmDigit (base : Nat) (c : Char) : Option Nat :=
  let v :=
    if '0' ≤ c ∧ c ≤ '9' then c.toNat - '0'.toNat
    else if 'a' ≤ c ∧ c ≤ 'f' then c.toNat - 'a'.toNat + 10
    else if 'A' ≤ c ∧ c ≤ 'F' then c.toNat - 'A'.toNat + 10
    else base
  if v < base then some v else none

/-- A number written in base `base`, most significant digit first, on top of `acc`. -/
def asmDigits (base acc : Nat) (cs : List Char) : Option Nat :=
  match cs with
  | [] => some acc
  | c :: rest =>
    match asmDigit base c with
    | some v => asmDigits base (acc * base + v) rest
    | none => none

/-- A number is decimal, or `0x` and hexadecimal (R76). -/
def asmNumber (cs : List Char) : Option Nat :=
  match cs with
  | [] => none
  | '0' :: 'x' :: d :: rest => asmDigits 16 0 (d :: rest)
  | d :: rest => asmDigits 10 0 (d :: rest)

/-- A lexeme, spelled backwards as the lexer gathers it: nothing, a number or a name. -/
def asmLexeme (acc : List Char) : Option (List AsmToken) :=
  match acc.reverse with
  | [] => some []
  | c :: rest =>
    if '0' ≤ c ∧ c ≤ '9' then
      match asmNumber (c :: rest) with
      | some n => some [.number n]
      | none => none
    else some [.name (c :: rest)]

/-- The token of a mark. -/
def asmMark (c : Char) : Option AsmToken :=
  if c = ',' then some .comma
  else if c = '*' then some .star
  else if c = '[' then some .open_
  else if c = ']' then some .close
  else none

/-- Putting tokens before the rest of a line. -/
def asmJoin (a b : Option (List AsmToken)) : Option (List AsmToken) :=
  match a, b with
  | some x, some y => some (x ++ y)
  | _, _ => none

/-- The tokens of a line; a comment starts at a semicolon (R76). -/
def asmTokens (acc : List Char) (cs : List Char) : Option (List AsmToken) :=
  match cs with
  | [] => asmLexeme acc
  | c :: rest =>
    if c = ';' then asmLexeme acc
    else if c = ' ' ∨ c = '\t' then asmJoin (asmLexeme acc) (asmTokens [] rest)
    else
      match asmMark c with
      | some t => asmJoin (asmLexeme acc) (asmJoin (some [t]) (asmTokens [] rest))
      | none => asmTokens (c :: acc) rest

/-- The items of `feeds`. -/
def asmParseItems (ts : List AsmToken) : Option (List (Nat × Nat)) :=
  match ts with
  | [.number b] => some [(b, 1)]
  | [.number b, .star, .number n] => some [(b, n)]
  | .number b :: .comma :: rest => (asmParseItems rest).map fun is => (b, 1) :: is
  | .number b :: .star :: .number n :: .comma :: rest => (asmParseItems rest).map fun is => (b, n) :: is
  | _ => none

/-- The bytes of a bracket that is not empty, and the tokens after it. -/
def asmParseBracket (ts : List AsmToken) : Option (List Nat × List AsmToken) :=
  match ts with
  | .number b :: .close :: rest => some ([b], rest)
  | .number b :: .comma :: rest => (asmParseBracket rest).map fun p => (b :: p.1, p.2)
  | _ => none

/-- The bracket and what follows it in `feedframe`: the payload and the extra. -/
def asmParseFrameTail (ts : List AsmToken) : Option (List Nat × Nat) :=
  match ts with
  | [.open_, .close, .comma, .number e] => some ([], e)
  | .open_ :: rest =>
    match asmParseBracket rest with
    | some (ps, [.comma, .number e]) => some (ps, e)
    | _ => none
  | _ => none

/-- A line's tokens (R76, R77). -/
def asmParse (ts : List AsmToken) : Option AsmLine :=
  match ts with
  | [] => some .blank
  | [.name m] => if m = ['n', 'o', 'p'] then some .nop else none
  | [.name m, .number c] =>
    if m = ['c', 'h', 'r', 's', 't'] then some (.chrst c)
    else if m = ['r', 'd', 's', 't', 'a', 't'] then some (.rdstat c)
    else if m = ['r', 'd', 'c', 'r', 'c'] then some (.rdcrc c)
    else if m = ['r', 'd', 'd', 'r', 'o', 'p'] then some (.rddrop c)
    else if m = ['r', 'd', 'h', 'd', 'r'] then some (.rdhdr c)
    else none
  | .name m :: .number c :: .comma :: rest =>
    if m = ['f', 'e', 'e', 'd'] then
      match rest with
      | [.number b] => some (.feed c b)
      | _ => none
    else if m = ['f', 'e', 'e', 'd', 's'] then (asmParseItems rest).map fun is => .feeds c is
    else if m = ['f', 'e', 'e', 'd', 'f', 'r', 'a', 'm', 'e'] then
      match rest with
      | .number l :: .comma :: .number sq :: .comma :: .number sy :: .comma :: .number co :: .comma ::
          .number mi :: .comma :: tail =>
        (asmParseFrameTail tail).map fun p => .feedframe c l sq sy co mi p.1 p.2
      | _ => none
    else none
  | _ => none

/-- One line of text. -/
def asmReadLine (cs : List Char) : Option AsmLine :=
  match asmTokens [] cs with
  | some ts => asmParse ts
  | none => none

/-- The command words of one line of text; `none` when the assembler refuses it. -/
def asmLineWords (marker : Byte) (cs : List Char) : Option (List Word) :=
  match asmReadLine cs with
  | some l => l.words marker
  | none => none

/-- The command words of a program, one line of text each. -/
def asmProgramWords (marker : Byte) (ls : List (List Char)) : Option (List Word) :=
  match ls with
  | [] => some []
  | l :: rest =>
    match asmLineWords marker l, asmProgramWords marker rest with
    | some ws, some vs => some (ws ++ vs)
    | _, _ => none

end Sys2Proof.Machine
end

