-- ==== Sys2Proof/Machine/Observe.lean ====
section
/-! DEFINITION. What a host sees of a run: the list of responses together with the state after it
(70_reset_and_hazards.md R190). -/

namespace Sys2Proof.Machine

/-- The responses of `n` steps, in order, and the state after them; `none` when a step stops. -/
def observe (n : Nat) (s : State) : Option (List Response × State) :=
  match n with
  | 0 => some ([], s)
  | k + 1 =>
    match step s with
    | .next t => (observe k t).map fun p => (t.resp.toList ++ p.1, p.2)
    | .fault _ => none
    | .refused _ => none

/-- The responses to the command words `ws`, presented in order, and the state after the last one. -/
def observeWords (ws : List Word) (s : State) : Option (List Response × State) :=
  observe ws.length (s.present ws)

/-- The responses to the bytes `bs` fed to channel `c`, and the state after the last one. -/
def observeFeeds (c : Byte) (bs : List Byte) (s : State) : Option (List Response × State) :=
  observeWords (feedWords c bs) s

end Sys2Proof.Machine
end

