-- ==== Sys2Proof/Safety.lean ====
section
/-! DEFINITION. What a good state and a safe step are: the reachable-state facts of 10_state.md R37, strengthened to an
invariant that every step keeps, and the absence of a stop. -/

namespace Sys2Proof.Machine

/-- The header bytes of the candidate frame, in wire order. -/
def headerBytes (ch : Channel) : List Byte := [ch.len, ch.seq, ch.sys, ch.comp, ch.msgid]

/-- The checksum covers the header bytes taken so far, and then the payload bytes taken so far (10_state.md R23). -/
def coveredBytes (ch : Channel) : List Byte :=
  match phaseOf ch.phase with
  | some .idle | some .gotLength | none => []
  | some .gotSequence => (headerBytes ch).take 1
  | some .gotSystemId => (headerBytes ch).take 2
  | some .gotComponentId => (headerBytes ch).take 3
  | some .gotMessageId => (headerBytes ch).take 4
  | some .inPayload => headerBytes ch ++ ch.pb.take ch.cnt.toNat
  | some .gotChecksumLow | some .gotChecksumHigh => headerBytes ch ++ ch.pb.take ch.len.toNat

/-- The value of `CRC` that the bytes taken so far give, `XTRA` being absorbed once the payload is complete (R23, R37). -/
def expectedCrc (ch : Channel) : Crc :=
  if 7 ≤ ch.phase.toNat ∧ ch.dfound = true then crcAcc (crcOver crcInit (coveredBytes ch)) ch.xtra
  else crcOver crcInit (coveredBytes ch)

/-- The invariant of a channel: what 10_state.md R21 to R28 and R37 say of it in each phase. -/
structure Channel.Inv (reg : Registry) (ch : Channel) : Prop where
  phase_legal : ch.phase.toNat ≤ 8
  pb_wf : Memory.wf ch.pb
  len_untaken : ch.phase.toNat ≤ 1 → ch.len = 0#8
  seq_untaken : ch.phase.toNat ≤ 2 → ch.seq = 0#8
  sys_untaken : ch.phase.toNat ≤ 3 → ch.sys = 0#8
  comp_untaken : ch.phase.toNat ≤ 4 → ch.comp = 0#8
  msgid_untaken : ch.phase.toNat ≤ 5 → ch.msgid = 0#8
  latch_clear : ch.phase.toNat ≤ 5 → ch.dfound = false ∧ ch.xtra = 0#8 ∧ ch.lenok = false
  latch_resolved : 6 ≤ ch.phase.toNat →
    (ch.dfound, ch.xtra, ch.lenok) = latchOf (registryLookup reg ch.msgid) ch.len
  cnt_zero : ch.phase.toNat ≠ 6 → ch.cnt = 0#8
  cnt_below : ch.phase.toNat = 6 → ch.cnt.toNat < ch.len.toNat
  cklo_untaken : ch.phase.toNat ≠ 8 → ch.cklo = 0#8
  crc_value : ch.crc = expectedCrc ch

/-- The invariant of the block: its parameters are in the ranges of 00_scope.md R4 and every channel meets its own. -/
structure State.Inv (s : State) : Prop where
  params_wf : s.params.wf
  channels_inv : ∀ ch ∈ s.channels, Channel.Inv s.registry ch

/-- The eight facts 10_state.md R37 lists, as it lists them. -/
structure Channel.ReachableFacts (ch : Channel) : Prop where
  phase_legal : ch.phase.toNat ≤ 8
  idle_clear : ch.phase = 0#4 → ch = { Channel.reset with drops := ch.drops, pb := ch.pb }
  length_clear : ch.phase = 1#4 → ch = { Channel.reset with phase := 1#4, drops := ch.drops, pb := ch.pb }
  cnt_payload : ch.cnt ≠ 0#8 → ch.phase = 6#4 ∧ ch.cnt.toNat < ch.len.toNat
  latch_clear : ch.phase.toNat ≤ 5 → ch.dfound = false ∧ ch.lenok = false ∧ ch.xtra = 0#8
  lenok_dfound : ch.lenok = true → ch.dfound = true
  checksum_crc : ch.phase = 7#4 ∨ ch.phase = 8#4 →
    ch.crc =
      if ch.dfound then
        frameCrc ch.len ch.seq ch.sys ch.comp ch.msgid (ch.pb.take ch.len.toNat) ch.xtra
      else crcOver crcInit ([ch.len, ch.seq, ch.sys, ch.comp, ch.msgid] ++ ch.pb.take ch.len.toNat)
  cklo_high : ch.cklo ≠ 0#8 → ch.phase = 8#4

/-- A state that port events (commands and resets, in any order) lead to from reset with the parameters `p`. -/
def ReachableFrom (p : Params) (s : State) : Prop :=
  ∃ (events : List PortEvent) (n : Nat) (rs : List Response),
    observe n { State.resetWith p with port := events } = some (rs, s)

/-- A step is safe when it answers a next state. -/
def SafeStep (s : State) : Prop := ∃ t, step s = .next t

/-- Two channels that differ at most in payload bytes the candidate frame has not taken (93_implementation_defined.md I4):
below `CNT` in IN_PAYLOAD and below `LEN` in the checksum phases the buffers agree. -/
def SameButStale (a b : Channel) : Prop :=
  { a with pb := b.pb } = b ∧
    ∀ i : Nat,
      ((a.phase = 6#4 ∧ i < a.cnt.toNat) ∨ ((a.phase = 7#4 ∨ a.phase = 8#4) ∧ i < a.len.toNat)) →
        a.pb.read i = b.pb.read i

end Sys2Proof.Machine
end

