-- ==== Sys2Proof/Certificates/Slice0/Obligations.lean ====
section
/-! DEFINITION. The statements for the provers, in the order of OBLIGATIONS.json. Responses are written out field by field:
`⟨KIND, CODE, RCH, RDATA, FRAME⟩` (30_encoding.md R69). -/

open Sys2Proof Sys2Proof.Machine

/-! ### Encodings -/

/-- R64, R66, R76: every command decodes from its own word, and a word that decodes has that one meaning. -/
def Obligations.DecodeAndEncodeAgree : Prop :=
  (∀ i : Instr, decode (encode i) = .ok i) ∧
  (∀ (w : Word) (i : Instr), decode w = .ok i → encode i = w)

/-- R78: the spec's encoding examples, and one word of every opcode (R66). -/
def Obligations.SpecWordsDecode : Prop :=
  decode 0x00000000#32 = .ok .nop ∧
  decode 0x100000FE#32 = .ok (.feed 0#8 0xFE#8) ∧
  decode 0x1001007B#32 = .ok (.feed 1#8 0x7B#8) ∧
  decode 0x20010000#32 = .ok (.chrst 1#8) ∧
  decode 0x30000000#32 = .ok (.rdstat 0#8) ∧
  decode 0x40020000#32 = .ok (.rdcrc 2#8) ∧
  decode 0x50000000#32 = .ok (.rddrop 0#8) ∧
  decode 0x60030000#32 = .ok (.rdhdr 3#8) ∧
  decode 0x70000000#32 = .error .illegalOpcode ∧
  decode 0x10000100#32 = .error .reservedField

/-- spec/opcode_table.json: a word matches a row's match and mask exactly when it decodes to that row's command. -/
def Obligations.DecodeFollowsOpcodeTable : Prop :=
  ∀ row ∈ opcodeTable, ∀ w : Word,
    w &&& row.mask = row.word ↔ ∃ i : Instr, decode w = .ok i ∧ i.mnemonic = row.mnemonic

/-! ### The port and the responses -/

/-- A step whose next port event is a command word that decodes runs exactly that command (20_memory.md R46, R48). -/
def Obligations.StepRunsTheDecodedCommand : Prop :=
  ∀ (s : State) (w : Word) (rest : List PortEvent) (i : Instr),
    s.port = .command w :: rest → decode w = .ok i → step s = exec i { s with port := rest }

/-- 60_exceptions.md R162, R164: each command error, in the spec's priority, as a next state in which only the response and
the port have moved on. The three cases exclude each other. -/
def Obligations.CommandErrorsInPriority : Prop :=
  ∀ (s : State) (w : Word) (rest : List PortEvent), s.port = .command w :: rest →
    let op := (w.extractLsb' 28 4).toNat
    let ch : Byte := w.extractLsb' 16 8
    let reserved :=
      (op = 0 ∧ w.extractLsb' 0 28 ≠ 0#28) ∨
      (op = 1 ∧ (w.extractLsb' 24 4 ≠ 0#4 ∨ w.extractLsb' 8 8 ≠ 0#8)) ∨
      (2 ≤ op ∧ op ≤ 6 ∧ (w.extractLsb' 24 4 ≠ 0#4 ∨ w.extractLsb' 0 16 ≠ 0#16))
    (7 ≤ op →
      step s = .next { s with port := rest, resp := some ⟨.cmdError, 0x01#8, ch, 0#32, none⟩ }) ∧
    (reserved →
      step s = .next { s with port := rest, resp := some ⟨.cmdError, 0x02#8, ch, 0#32, none⟩ }) ∧
    (1 ≤ op → op ≤ 6 → ¬ reserved → s.channels.length ≤ ch.toNat →
      step s = .next { s with port := rest, resp := some ⟨.cmdError, 0x03#8, ch, 0#32, none⟩ })

/-- 30_encoding.md R69: one command, one response, in the same step; `RCH` copies `w[23:16]`, a frame comes exactly with
FRAME_READY, and `RDATA` is 0 but for a read that completes. The rest of the port is left for later steps (R48). -/
def Obligations.EveryCommandAnswersOnce : Prop :=
  ∀ (s t : State) (w : Word) (rest : List PortEvent),
    s.port = .command w :: rest → step s = .next t →
      t.port = rest ∧
      ∃ r : Response, t.resp = some r ∧
        r.rch = w.extractLsb' 16 8 ∧
        (r.frame.isSome = true ↔ r.kind = .frameReady) ∧
        (r.rdata ≠ 0#32 → r.kind = .ok ∧ 3 ≤ (w.extractLsb' 28 4).toNat ∧ (w.extractLsb' 28 4).toNat ≤ 6)

/-- 30_encoding.md R70: the encodings of `KIND`, the `CODE` values that go with each, and who gives them. -/
def Obligations.ResponseKindsAndCodes : Prop :=
  Kind.bits .ok = 0#2 ∧ Kind.bits .frameReady = 1#2 ∧ Kind.bits .frameRejected = 2#2 ∧ Kind.bits .cmdError = 3#2 ∧
  ∀ (s t : State) (w : Word) (rest : List PortEvent) (r : Response),
    s.port = .command w :: rest → step s = .next t → t.resp = some r →
      (r.kind = .ok ∧ r.code = 0x00#8 ∧ ∃ i, decode w = .ok i) ∨
      (r.kind = .frameReady ∧ r.code = 0x00#8 ∧ ∃ c b, decode w = .ok (.feed c b)) ∨
      (r.kind = .frameRejected ∧ r.code = 0x01#8 ∧ ∃ c b, decode w = .ok (.feed c b)) ∨
      (r.kind = .cmdError ∧
        ((r.code = 0x01#8 ∧ decode w = .error .illegalOpcode) ∨
         (r.code = 0x02#8 ∧ decode w = .error .reservedField) ∨
         (r.code = 0x03#8 ∧ ∃ i c, decode w = .ok i ∧ i.channel? = some c ∧ s.channels.length ≤ c.toNat)))

/-- 60_exceptions.md R174, R160: with nothing presented the block holds its state and answers nothing. That such a step
is a next state is the model's choice (log 4). -/
def Obligations.NothingPresentedHoldsState : Prop :=
  ∀ s : State, s.port = [] → step s = .next { s with resp := none }

/-- 20_memory.md R48: the responses and the state of a sequence of command words are those of its first part followed by
those of its second part from the state the first part leaves. -/
def Obligations.SequencesCompose : Prop :=
  ∀ (us vs : List Word) (s : State),
    observeWords (us ++ vs) s =
      (observeWords us s).bind fun p =>
        (observeWords vs p.2).map fun q => (p.1 ++ q.1, q.2)

/-! ### NOP, CHRST and the reads -/

/-- 41_channel_control.md R130: NOP answers OK with `RCH = 0` and `RDATA = 0` in every state, and a word of opcode 0 with
any of bits 27:0 set answers RESERVED_FIELD; neither touches a channel. -/
def Obligations.NopAnswersOk : Prop :=
  (∀ s : State, exec .nop s = .next { s with resp := some ⟨.ok, 0x00#8, 0#8, 0#32, none⟩ }) ∧
  (∀ (s : State) (w : Word) (rest : List PortEvent),
    s.port = .command w :: rest → w.extractLsb' 28 4 = 0#4 →
      step s = .next
        { s with
          port := rest
          resp := some
            (if w.extractLsb' 0 28 = 0#28 then ⟨.ok, 0x00#8, 0#8, 0#32, none⟩
             else ⟨.cmdError, 0x02#8, w.extractLsb' 16 8, 0#32, none⟩) })

/-- 41_channel_control.md R132 with 10_state.md R31: CHRST on an existing channel sets every per-frame field to its
ClearFrame value, keeps `DROPS` and `PB`, answers OK and changes nothing else. -/
def Obligations.ChrstClearsTheFrame : Prop :=
  ∀ (s : State) (c : Byte) (ch : Channel), s.channels[c.toNat]? = some ch →
    exec (.chrst c) s = .next
      { s with
        channels := s.channels.set c.toNat
          { phase := 0#4, crc := 0xFFFF#16, len := 0#8, cnt := 0#8, seq := 0#8, sys := 0#8, comp := 0#8,
            msgid := 0#8, cklo := 0#8, xtra := 0#8, dfound := false, lenok := false,
            drops := ch.drops, pb := ch.pb }
        resp := some ⟨.ok, 0x00#8, c, 0#32, none⟩ }

/-- A corner case of 41_channel_control.md, which the spec marks as derived from its reachable states: on a channel that
meets the invariant and is in IDLE, CHRST changes no channel. -/
def Obligations.ChrstInIdleChangesNothing : Prop :=
  ∀ (s : State) (c : Byte) (ch : Channel), s.channels[c.toNat]? = some ch → ch.Inv s.registry → ch.phase = 0#4 →
    exec (.chrst c) s = .next { s with resp := some ⟨.ok, 0x00#8, c, 0#32, none⟩ }

/-- 30_encoding.md R72, 42_status_reads.md R140: the RDSTAT word, bit by bit; nothing but the response changes. -/
def Obligations.RdstatReadsPhaseAndLength : Prop :=
  ∀ (s : State) (c : Byte) (ch : Channel), s.channels[c.toNat]? = some ch →
    ∃ d : Word,
      exec (.rdstat c) s = .next { s with resp := some ⟨.ok, 0x00#8, c, d, none⟩ } ∧
      d.extractLsb' 0 4 = ch.phase ∧ d.getLsbD 4 = ch.dfound ∧ d.getLsbD 5 = ch.lenok ∧
      d.extractLsb' 6 2 = 0#2 ∧ d.extractLsb' 8 8 = ch.cnt ∧ d.extractLsb' 16 8 = ch.len ∧
      d.extractLsb' 24 8 = ch.msgid

/-- 30_encoding.md R73: the RDCRC word; nothing but the response changes. -/
def Obligations.RdcrcReadsChecksumState : Prop :=
  ∀ (s : State) (c : Byte) (ch : Channel), s.channels[c.toNat]? = some ch →
    ∃ d : Word,
      exec (.rdcrc c) s = .next { s with resp := some ⟨.ok, 0x00#8, c, d, none⟩ } ∧
      d.extractLsb' 0 16 = ch.crc ∧ d.extractLsb' 16 8 = ch.cklo ∧ d.extractLsb' 24 8 = ch.xtra

/-- 30_encoding.md R75: the RDDROP word; nothing but the response changes, so reading does not clear the counter. -/
def Obligations.RddropReadsDrops : Prop :=
  ∀ (s : State) (c : Byte) (ch : Channel), s.channels[c.toNat]? = some ch →
    exec (.rddrop c) s = .next { s with resp := some ⟨.ok, 0x00#8, c, ch.drops, none⟩ }

/-- 30_encoding.md R74: the RDHDR word; nothing but the response changes. -/
def Obligations.RdhdrReadsHeader : Prop :=
  ∀ (s : State) (c : Byte) (ch : Channel), s.channels[c.toNat]? = some ch →
    ∃ d : Word,
      exec (.rdhdr c) s = .next { s with resp := some ⟨.ok, 0x00#8, c, d, none⟩ } ∧
      d.extractLsb' 0 8 = ch.seq ∧ d.extractLsb' 8 8 = ch.sys ∧ d.extractLsb' 16 8 = ch.comp ∧
      d.extractLsb' 24 8 = 0#8

/-- The corner cases of 42_status_reads.md, which rest on the reachable states the spec derives: what the reads answer on a
channel that meets the invariant and is in IDLE. -/
def Obligations.ReadsInIdle : Prop :=
  ∀ (s : State) (c : Byte) (ch : Channel), s.channels[c.toNat]? = some ch → ch.Inv s.registry → ch.phase = 0#4 →
    exec (.rdstat c) s = .next { s with resp := some ⟨.ok, 0x00#8, c, 0x00000000#32, none⟩ } ∧
    exec (.rdcrc c) s = .next { s with resp := some ⟨.ok, 0x00#8, c, 0x0000FFFF#32, none⟩ } ∧
    exec (.rdhdr c) s = .next { s with resp := some ⟨.ok, 0x00#8, c, 0x00000000#32, none⟩ }

/-- 20_memory.md R47 (its CHRST clause is the spec's own derivation): NOP and the reads have no side effect and answer
the same twice; CHRST twice is CHRST once; FEED is not idempotent; a word that raises a command error changes no
channel and no parameter. -/
def Obligations.SideEffectsAndIdempotency : Prop :=
  (∀ (s t : State) (i : Instr), (i = .nop ∨ ∃ c, i = .rdstat c ∨ i = .rdcrc c ∨ i = .rddrop c ∨ i = .rdhdr c) →
    exec i s = .next t → t = { s with resp := t.resp } ∧ exec i t = .next t) ∧
  (∀ (s t : State) (c : Byte), exec (.chrst c) s = .next t → exec (.chrst c) t = .next t) ∧
  (∃ (s t u : State) (c b : Byte),
    exec (.feed c b) s = .next t ∧ exec (.feed c b) t = .next u ∧ u.channels ≠ t.channels) ∧
  (∀ (s t : State) (w : Word) (rest : List PortEvent) (r : Response),
    s.port = .command w :: rest → step s = .next t → t.resp = some r → r.kind = .cmdError →
      t.channels = s.channels ∧ t.params = s.params)

/-- 42_status_reads.md R141, which the spec marks as derived: after a read, every command does exactly what it would have
done without it. -/
def Obligations.ReadsBetweenFeedsChangeNothing : Prop :=
  ∀ (s t : State) (c : Byte) (i j : Instr),
    (i = .rdstat c ∨ i = .rdcrc c ∨ i = .rddrop c ∨ i = .rdhdr c) →
      exec i s = .next t → exec j t = exec j s

/-! ### FEED, phase by phase -/

/-- 40_feed.md R101, R102: a byte taken in IDLE. -/
def Obligations.FeedInIdle : Prop :=
  ∀ (s : State) (c b : Byte) (ch : Channel), s.channels[c.toNat]? = some ch → ch.phase = 0#4 →
    (b = s.startMarker →
      exec (.feed c b) s = .next
        { s with
          channels := s.channels.set c.toNat { ch with crc := 0xFFFF#16, phase := 1#4 }
          resp := some ⟨.ok, 0x00#8, c, 0#32, none⟩ }) ∧
    (b ≠ s.startMarker →
      exec (.feed c b) s = .next { s with resp := some ⟨.ok, 0x00#8, c, 0#32, none⟩ })

/-- 40_feed.md R103 to R106: LEN, SEQ, SYS_ID and COMP_ID, each stored, absorbed and followed by the next phase. -/
def Obligations.FeedHeaderBytes : Prop :=
  ∀ (s : State) (c b : Byte) (ch : Channel), s.channels[c.toNat]? = some ch →
    let becomes (ch' : Channel) : Prop :=
      exec (.feed c b) s = .next
        { s with channels := s.channels.set c.toNat ch', resp := some ⟨.ok, 0x00#8, c, 0#32, none⟩ }
    (ch.phase = 1#4 → becomes { ch with len := b, crc := crcAcc ch.crc b, phase := 2#4 }) ∧
    (ch.phase = 2#4 → becomes { ch with seq := b, crc := crcAcc ch.crc b, phase := 3#4 }) ∧
    (ch.phase = 3#4 → becomes { ch with sys := b, crc := crcAcc ch.crc b, phase := 4#4 }) ∧
    (ch.phase = 4#4 → becomes { ch with comp := b, crc := crcAcc ch.crc b, phase := 5#4 })

/-- 40_feed.md R107 with R110 and 10_state.md R28: MSG_ID, the descriptor latch, and where the channel goes next. -/
def Obligations.FeedMessageIdLatches : Prop :=
  ∀ (s : State) (c b : Byte) (ch : Channel), s.channels[c.toNat]? = some ch → ch.phase = 5#4 →
    ∃ ch' : Channel,
      exec (.feed c b) s = .next
        { s with channels := s.channels.set c.toNat ch', resp := some ⟨.ok, 0x00#8, c, 0#32, none⟩ } ∧
      ch'.msgid = b ∧
      (∀ d, registryLookup s.registry b = some d →
        ch'.dfound = true ∧ ch'.xtra = d.crcExtra ∧ (ch'.lenok = true ↔ d.payloadLength = ch.len)) ∧
      (registryLookup s.registry b = none → ch'.dfound = false ∧ ch'.xtra = 0#8 ∧ ch'.lenok = false) ∧
      (ch.len = 0#8 → ch'.phase = 7#4 ∧ ch'.cnt = ch.cnt ∧
        ch'.crc = if ch'.dfound then crcAcc (crcAcc ch.crc b) ch'.xtra else crcAcc ch.crc b) ∧
      (ch.len ≠ 0#8 → ch'.phase = 6#4 ∧ ch'.cnt = 0#8 ∧ ch'.crc = crcAcc ch.crc b) ∧
      ch'.len = ch.len ∧ ch'.seq = ch.seq ∧ ch'.sys = ch.sys ∧ ch'.comp = ch.comp ∧ ch'.cklo = ch.cklo ∧
      ch'.drops = ch.drops ∧ ch'.pb = ch.pb

/-- 40_feed.md R108 to R110: a payload byte is stored at index `CNT` and nowhere else, absorbed, and counted; the last one
also absorbs `XTRA` when the descriptor was found, and ends the payload. Where `CNT = 255`, see PayloadIndex255Faults. -/
def Obligations.FeedPayloadByte : Prop :=
  ∀ (s : State) (c b : Byte) (ch : Channel), s.channels[c.toNat]? = some ch → ch.phase = 6#4 →
    ch.cnt ≠ 255#8 →
    ∃ ch' : Channel,
      exec (.feed c b) s = .next
        { s with channels := s.channels.set c.toNat ch', resp := some ⟨.ok, 0x00#8, c, 0#32, none⟩ } ∧
      (∀ a : Nat, ch'.pb.read a = if a = ch.cnt.toNat then b else ch.pb.read a) ∧
      (ch.cnt.toNat + 1 = ch.len.toNat → ch'.phase = 7#4 ∧ ch'.cnt = 0#8 ∧
        ch'.crc = if ch.dfound then crcAcc (crcAcc ch.crc b) ch.xtra else crcAcc ch.crc b) ∧
      (ch.cnt.toNat + 1 ≠ ch.len.toNat → ch'.phase = 6#4 ∧ ch'.cnt.toNat = ch.cnt.toNat + 1 ∧
        ch'.crc = crcAcc ch.crc b) ∧
      ch' = { ch with phase := ch'.phase, crc := ch'.crc, cnt := ch'.cnt, pb := ch'.pb }

/-- 40_feed.md R111: CKSUM_LOW is held, and `CRC` is neither changed nor compared. -/
def Obligations.FeedChecksumLowByte : Prop :=
  ∀ (s : State) (c b : Byte) (ch : Channel), s.channels[c.toNat]? = some ch → ch.phase = 7#4 →
    exec (.feed c b) s = .next
      { s with
        channels := s.channels.set c.toNat { ch with cklo := b, phase := 8#4 }
        resp := some ⟨.ok, 0x00#8, c, 0#32, none⟩ }

/-- 40_feed.md R112 with 30_encoding.md R71: a valid frame is emitted whole, and the channel is cleared with `DROPS` and
`PB` kept. -/
def Obligations.FeedAcceptsValidFrame : Prop :=
  ∀ (s : State) (c b : Byte) (ch : Channel), s.channels[c.toNat]? = some ch → ch.phase = 8#4 →
    ch.dfound = true → ch.lenok = true → b ++ ch.cklo = ch.crc →
    ∃ payload : List Byte,
      payload.length = ch.len.toNat ∧
      (∀ i : Nat, i < ch.len.toNat → payload[i]? = some (ch.pb.read i)) ∧
      exec (.feed c b) s = .next
        { s with
          channels := s.channels.set c.toNat { Channel.reset with drops := ch.drops, pb := ch.pb }
          resp := some ⟨.frameReady, 0x00#8, c, 0#32, some
            { startMarker := s.startMarker, payloadLength := ch.len, sequence := ch.seq, systemId := ch.sys,
              componentId := ch.comp, messageId := ch.msgid, payload := payload, checksum := b ++ ch.cklo }⟩ }

/-- 40_feed.md R113: a frame that is not valid is rejected and counted once, saturating at `2^32 - 1`, and the channel is
cleared. -/
def Obligations.FeedRejectsInvalidFrame : Prop :=
  ∀ (s : State) (c b : Byte) (ch : Channel), s.channels[c.toNat]? = some ch → ch.phase = 8#4 →
    ¬ (ch.dfound = true ∧ ch.lenok = true ∧ b ++ ch.cklo = ch.crc) →
    ∃ d : BitVec 32,
      d.toNat = min (ch.drops.toNat + 1) (2 ^ 32 - 1) ∧
      exec (.feed c b) s = .next
        { s with
          channels := s.channels.set c.toNat { Channel.reset with drops := d, pb := ch.pb }
          resp := some ⟨.frameRejected, 0x01#8, c, 0#32, none⟩ }

/-- 60_exceptions.md R166: a FEED in phases 9 to 15 faults, RDSTAT there reports the value, no step writes one, and reset
leaves none, so it cannot arise from reset. -/
def Obligations.UnusedPhasesFault : Prop :=
  (∀ (s : State) (c b : Byte) (ch : Channel), s.channels[c.toNat]? = some ch → 9 ≤ ch.phase.toNat →
    exec (.feed c b) s = .fault .unusedPhase) ∧
  (∀ (s : State) (c : Byte) (ch : Channel), s.channels[c.toNat]? = some ch → 9 ≤ ch.phase.toNat →
    ∃ d : Word, exec (.rdstat c) s = .next { s with resp := some ⟨.ok, 0x00#8, c, d, none⟩ } ∧
      d.extractLsb' 0 4 = ch.phase) ∧
  (∀ (s t : State) (k : Nat) (ch' : Channel),
    step s = .next t → t.channels[k]? = some ch' → 9 ≤ ch'.phase.toNat → s.channels[k]? = some ch') ∧
  (∀ (p : Params) (ch : Channel), ch ∈ (State.resetWith p).channels → ch.phase.toNat ≤ 8)

/-- The model's own stop (log 6): a payload byte for index 255, which `PB[c][0..254]` does not have (20_memory.md R40). -/
def Obligations.PayloadIndex255Faults : Prop :=
  ∀ (s : State) (c b : Byte) (ch : Channel), s.channels[c.toNat]? = some ch → ch.phase = 6#4 →
    ch.cnt = 255#8 → exec (.feed c b) s = .fault .payloadIndex

/-- 40_feed.md R100, 60_exceptions.md R165: in every legal phase a FEED completes with exactly one of the three outcomes. -/
def Obligations.FeedCompletes : Prop :=
  ∀ (s : State) (c b : Byte) (ch : Channel), s.channels[c.toNat]? = some ch → ch.phase.toNat ≤ 8 →
    (ch.phase = 6#4 → ch.cnt ≠ 255#8) →
    ∃ (t : State) (r : Response), exec (.feed c b) s = .next t ∧ t.resp = some r ∧
      r.rch = c ∧ r.rdata = 0#32 ∧ (r.kind = .ok ∨ r.kind = .frameReady ∨ r.kind = .frameRejected)

/-- The frame of FEED: the parameters and the port stay, every other channel stays whole, `DROPS` stays unless the outcome
is a rejection, and every payload byte stays but the one at index `CNT` in IN_PAYLOAD (10_state.md R29, R30, R32). -/
def Obligations.FeedFrame : Prop :=
  ∀ (s t : State) (c b : Byte) (ch : Channel), s.channels[c.toNat]? = some ch →
    exec (.feed c b) s = .next t →
    t.params = s.params ∧ t.port = s.port ∧
    (∀ k : Nat, k ≠ c.toNat → t.channels[k]? = s.channels[k]?) ∧
    ∃ ch' : Channel, t.channels[c.toNat]? = some ch' ∧
      ((∀ r, t.resp = some r → r.kind ≠ .frameRejected) → ch'.drops = ch.drops) ∧
      (∀ a : Nat, ¬ (ch.phase = 6#4 ∧ a = ch.cnt.toNat) → ch'.pb.read a = ch.pb.read a)

/-- 40_feed.md R116: no byte taken in phases 1 to 8 is compared with the start marker: with another marker the channel
ends the same and the response differs at most in the frame's own `start_marker` field. -/
def Obligations.NoRescan : Prop :=
  ∀ (s t : State) (c b m : Byte) (ch : Channel), s.channels[c.toNat]? = some ch → ch.phase ≠ 0#4 →
    exec (.feed c b) s = .next t →
    exec (.feed c b) { s with startMarker := m } = .next
      { t with
        startMarker := m
        resp := t.resp.map fun r => { r with frame := r.frame.map fun f => { f with startMarker := m } } }

/-! ### Counters, parameters, reset, isolation -/

/-- 10_state.md R29: `DROPS` after any step: 0 after reset, one more (saturating) on the channel a FRAME_REJECTED names, and
otherwise unchanged; so it never decreases but at reset. -/
def Obligations.DropsCountRejections : Prop :=
  ∀ (s t : State) (k : Nat) (ch ch' : Channel),
    step s = .next t → s.channels[k]? = some ch → t.channels[k]? = some ch' →
      (s.port.head? = some .reset → ch'.drops = 0#32) ∧
      (s.port.head? ≠ some .reset →
        ((∃ r, t.resp = some r ∧ r.kind = .frameRejected ∧ r.rch.toNat = k) →
          ch'.drops.toNat = min (ch.drops.toNat + 1) (2 ^ 32 - 1)) ∧
        (¬ (∃ r, t.resp = some r ∧ r.kind = .frameRejected ∧ r.rch.toNat = k) → ch'.drops = ch.drops) ∧
        ch.drops.toNat ≤ ch'.drops.toNat)

/-- 10_state.md R33: no port event changes `NUM_CHANNELS`, `START_MARKER` or `REGISTRY`. -/
def Obligations.ParametersNeverChange : Prop :=
  ∀ s t : State, step s = .next t → t.params = s.params

/-- 70_reset_and_hazards.md R180: reset, asserted in any state or at power-up, sets every field of every channel and
produces no response. What `PB` holds is left out: the spec leaves it unspecified (log 3). -/
def Obligations.ResetSetsEveryField : Prop :=
  let isReset (ch : Channel) : Prop := ch = { Channel.reset with pb := ch.pb } ∧
    ch.phase = 0#4 ∧ ch.crc = 0xFFFF#16 ∧ ch.drops = 0#32 ∧ ch.len = 0#8 ∧ ch.cnt = 0#8 ∧ ch.seq = 0#8 ∧
    ch.sys = 0#8 ∧ ch.comp = 0#8 ∧ ch.msgid = 0#8 ∧ ch.cklo = 0#8 ∧ ch.xtra = 0#8 ∧ ch.dfound = false ∧ ch.lenok = false
  (∀ (s : State) (rest : List PortEvent), s.port = .reset :: rest →
    ∃ t : State, step s = .next t ∧ t.resp = none ∧ t.port = rest ∧ t.params = s.params ∧
      ∀ ch ∈ t.channels, isReset ch) ∧
  (∀ p : Params, (State.resetWith p).params = p ∧ (State.resetWith p).resp = none ∧
    ∀ ch ∈ (State.resetWith p).channels, isReset ch)

/-- 10_state.md R32: a command leaves every channel it does not name, and what it answers and leaves in the channel it
names depends on that channel and the parameters alone. -/
def Obligations.ChannelIsolation : Prop :=
  (∀ (s t : State) (i : Instr) (k : Nat), exec i s = .next t →
    (∀ c, i.channel? = some c → c.toNat ≠ k) → t.channels[k]? = s.channels[k]?) ∧
  (∀ (s s' : State) (i : Instr) (c : Byte), i.channel? = some c →
    s'.startMarker = s.startMarker → s'.registry = s.registry → s'.channels[c.toNat]? = s.channels[c.toNat]? →
    (∀ t, exec i s = .next t →
      ∃ t', exec i s' = .next t' ∧ t'.resp = t.resp ∧ t'.channels[c.toNat]? = t.channels[c.toNat]?) ∧
    (∀ e, exec i s = .fault e → exec i s' = .fault e))

/-- 20_memory.md R49, which the spec marks as derived: two sequences of command words that differ only in how different channels are interleaved give every
channel the same responses and leave every channel the same. -/
def Obligations.InterleavingIsUnobservable : Prop :=
  ∀ (s : State) (us vs : List Word), s.Inv →
    (∀ c : Byte, us.filter (fun w => decide (chField w = c)) = vs.filter (fun w => decide (chField w = c))) →
    ∃ (ru rv : List Response) (tu tv : State),
      observeWords us s = some (ru, tu) ∧ observeWords vs s = some (rv, tv) ∧
      (∀ c : Byte, ru.filter (fun r => decide (r.rch = c)) = rv.filter (fun r => decide (r.rch = c))) ∧
      tu.channels = tv.channels

/-- 10_state.md R30, 93_implementation_defined.md I4: payload bytes the candidate frame has not taken are never observed:
two states that differ only in them answer alike and go on differing only in them. -/
def Obligations.StaleBytesAreNeverObserved : Prop :=
  ∀ (s : State) (i : Instr) (c : Byte) (a b : Channel), s.channels[c.toNat]? = some a → SameButStale a b →
    (∃ (t : State) (a' b' : Channel), exec i s = .next t ∧ t.channels[c.toNat]? = some a' ∧ SameButStale a' b' ∧
      exec i { s with channels := s.channels.set c.toNat b } =
        .next { t with channels := t.channels.set c.toNat b' }) ∨
    (∃ e, exec i s = .fault e ∧ exec i { s with channels := s.channels.set c.toNat b } = .fault e)

/-! ### The checksum -/

/-- 00_scope.md R9: the byte-wise form gives the same result as the shift loop for every `crc` and `b`. -/
def Obligations.CrcBytewiseFormAgrees : Prop :=
  ∀ (crc : Crc) (b : Byte), crcAccBytewise crc b = crcAcc crc b

/-! ### Invariants -/

/-- The state after reset meets the invariant, which strengthens what the spec derives of the reachable states
(10_state.md R37), whatever the parameters. -/
def Obligations.ResetMeetsTheInvariant : Prop :=
  State.Inv State.reset ∧ ∀ p : Params, p.wf → (State.resetWith p).Inv

/-- Every step keeps the invariant, whose clauses are those of 10_state.md R21 to R28 and of the reachable states the spec
derives (R37). -/
def Obligations.StepKeepsTheInvariant : Prop :=
  ∀ s t : State, s.Inv → step s = .next t → t.Inv

/-- 70_reset_and_hazards.md R190, 60_exceptions.md R166: from a state that meets the invariant no step stops. -/
def Obligations.InvariantStepsAreSafe : Prop :=
  ∀ s : State, s.Inv → SafeStep s

/-- 10_state.md R37, which the spec marks as derived: in every state that commands and resets lead to from reset, under any parameters, every channel
meets the eight facts the rule lists. -/
def Obligations.ReachableStatesMeetR37 : Prop :=
  ∀ (p : Params) (s : State), p.wf → ReachableFrom p s → ∀ ch ∈ s.channels, ch.ReachableFacts

/-- 60_exceptions.md R167, 40_feed.md R112: a frame the block emits is always fully validated: its marker, registered
length and checksum are those of a well-formed frame (30_encoding.md R61), and its payload has its declared length. -/
def Obligations.EmittedFramesAreWellFormed : Prop :=
  ∀ (s t : State) (r : Response) (f : Frame), s.Inv → step s = .next t → t.resp = some r → r.frame = some f →
    f.wellFormed s.startMarker s.registry = true ∧ f.payload.length = f.payloadLength.toNat

/-! ### Whole frames -/

/-- 30_encoding.md R60 to R62: the reference encoder's bytes are `8 + LEN` many and are a well-formed frame of a
registered id and length. -/
def Obligations.WireBytesAreWellFormed : Prop :=
  ∀ (marker len seq sys comp mid x : Byte) (payload : List Byte) (reg : Registry),
    payload.length = len.toNat → registryLookup reg mid = some ⟨len, x⟩ →
      (wireBytes marker len seq sys comp mid payload x).length = 8 + len.toNat ∧
      wellFormedFrame marker reg (wireBytes marker len seq sys comp mid payload x) = true

/-- 40_feed.md R117, which the spec marks as derived: from any state whose channel is in IDLE, the bytes of a well-formed frame give OK for all but the
last, and FRAME_READY with exactly that frame's fields for the last; `DROPS` and every other channel are unchanged and
the channel ends in IDLE. Bytes that are not the start marker leave every channel as it was. -/
def Obligations.ResynchronizationGuarantee : Prop :=
  (∀ (s : State) (c : Byte) (ch : Channel) (bs : List Byte) (f : Frame),
    s.channels[c.toNat]? = some ch → ch.phase = 0#4 →
    wellFormedFrame s.startMarker s.registry bs = true → layoutFrame bs = some f →
    ∃ (t : State) (ch' : Channel),
      observeFeeds c bs s = some
        (List.replicate (7 + f.payloadLength.toNat) ⟨.ok, 0x00#8, c, 0#32, none⟩ ++
          [⟨.frameReady, 0x00#8, c, 0#32, some f⟩], t) ∧
      t.channels = s.channels.set c.toNat ch' ∧ ch'.phase = 0#4 ∧ ch'.drops = ch.drops) ∧
  (∀ (s : State) (c : Byte) (ch : Channel) (noise : List Byte),
    s.channels[c.toNat]? = some ch → ch.phase = 0#4 → s.startMarker ∉ noise →
    ∃ t : State,
      observeFeeds c noise s = some (List.replicate noise.length ⟨.ok, 0x00#8, c, 0#32, none⟩, t) ∧
      t.channels = s.channels)

/-- 40_feed.md R113 to R115: a candidate frame that starts with the start marker but is not well formed, because its
id is not registered, its length is not the registered one or its checksum differs, is taken to its wire length, then
rejected once with CHECKSUM_MISMATCH and counted. The checksum cause rests on the FrameCRC equality that R110 marks as
derived. -/
def Obligations.IllFormedCandidateIsRejected : Prop :=
  ∀ (s : State) (c : Byte) (ch : Channel) (bs : List Byte) (f : Frame),
    s.channels[c.toNat]? = some ch → ch.phase = 0#4 →
    layoutFrame bs = some f → f.startMarker = s.startMarker →
    wellFormedFrame s.startMarker s.registry bs = false →
    ∃ (t : State) (ch' : Channel),
      observeFeeds c bs s = some
        (List.replicate (7 + f.payloadLength.toNat) ⟨.ok, 0x00#8, c, 0#32, none⟩ ++
          [⟨.frameRejected, 0x01#8, c, 0#32, none⟩], t) ∧
      t.channels = s.channels.set c.toNat ch' ∧ ch'.phase = 0#4 ∧
      ch'.drops.toNat = min (ch.drops.toNat + 1) (2 ^ 32 - 1)

/-- 40_feed.md R119, a property the spec derives: a well-formed frame with any one byte of SEQ, SYS_ID, COMP_ID, the payload or the checksum changed
(so with any one bit of it flipped) is rejected at its own end and counted. -/
def Obligations.OneChangedByteIsRejected : Prop :=
  ∀ (s : State) (c : Byte) (ch : Channel) (bs : List Byte) (f : Frame) (i : Nat) (b : Byte),
    s.channels[c.toNat]? = some ch → ch.phase = 0#4 →
    wellFormedFrame s.startMarker s.registry bs = true → layoutFrame bs = some f →
    2 ≤ i → i ≠ 5 → i < bs.length → bs[i]? ≠ some b →
    ∃ (t : State) (ch' : Channel),
      observeFeeds c (bs.set i b) s = some
        (List.replicate (7 + f.payloadLength.toNat) ⟨.ok, 0x00#8, c, 0#32, none⟩ ++
          [⟨.frameRejected, 0x01#8, c, 0#32, none⟩], t) ∧
      t.channels = s.channels.set c.toNat ch' ∧ ch'.phase = 0#4 ∧
      ch'.drops.toNat = min (ch.drops.toNat + 1) (2 ^ 32 - 1)

/-- 40_feed.md R118, which the spec marks as derived: from GOT_LENGTH a channel is back in IDLE after exactly `7 + L` FEEDs, `L` the first of their bytes;
from any state that meets the invariant it is in IDLE within 262 FEEDs; and a return to IDLE other than by CHRST or
reset is a FEED that answers FRAME_READY or FRAME_REJECTED on that channel. -/
def Obligations.RecoveryBound : Prop :=
  (∀ (s : State) (c l : Byte) (ch : Channel) (bs : List Byte),
    s.channels[c.toNat]? = some ch → ch.phase = 1#4 → bs.length = 6 + l.toNat →
    (∃ (t : State) (ch' : Channel) (r : Response),
      observeFeeds c (l :: bs) s = some
        (List.replicate (6 + l.toNat) ⟨.ok, 0x00#8, c, 0#32, none⟩ ++ [r], t) ∧
      (r.kind = .frameReady ∨ r.kind = .frameRejected) ∧ r.rch = c ∧
      t.channels[c.toNat]? = some ch' ∧ ch'.phase = 0#4) ∧
    (∀ (k : Nat) (rs : List Response) (u : State) (ch' : Channel), k < 7 + l.toNat →
      observeFeeds c ((l :: bs).take k) s = some (rs, u) → u.channels[c.toNat]? = some ch' → ch'.phase ≠ 0#4)) ∧
  (∀ (s : State) (c : Byte) (ch : Channel) (bs : List Byte), s.Inv → s.channels[c.toNat]? = some ch →
    bs.length = 262 →
    ∃ (k : Nat) (rs : List Response) (t : State) (ch' : Channel), k ≤ 262 ∧
      observeFeeds c (bs.take k) s = some (rs, t) ∧ t.channels[c.toNat]? = some ch' ∧ ch'.phase = 0#4) ∧
  (∀ (s t : State) (k : Nat) (ch ch' : Channel), step s = .next t →
    s.channels[k]? = some ch → t.channels[k]? = some ch' → ch.phase ≠ 0#4 → ch'.phase = 0#4 →
    s.port.head? = some .reset ∨
    (∃ w c, s.port.head? = some (.command w) ∧ decode w = .ok (.chrst c) ∧ c.toNat = k) ∨
    (∃ r, t.resp = some r ∧ (r.kind = .frameReady ∨ r.kind = .frameRejected) ∧ r.rch.toNat = k))

/-! ### The registry parameter and the assembler -/

/-- 60_exceptions.md R167: no registry can be built from a catalog with two different descriptors for one id; from any
other catalog the registry gives each id its descriptor, and no other id one. -/
def Obligations.RegistryOfCatalogRefusesConflicts : Prop :=
  (∀ catalog : List RegistryEntry,
    registryOfCatalog catalog = none ↔ ∃ e ∈ catalog, ∃ f ∈ catalog, e.id = f.id ∧ e.desc ≠ f.desc) ∧
  (∀ (catalog : List RegistryEntry) (r : Registry), registryOfCatalog catalog = some r →
    Registry.wf r ∧
    ∀ (id : Byte) (d : Descriptor), registryLookup r id = some d ↔ (⟨id, d⟩ : RegistryEntry) ∈ catalog)

/-- 30_encoding.md R76: the word of each mnemonic is `{OP, 0x0, ch, 0x00, byte}`, and a value that does not fit 8 bits is
refused. -/
def Obligations.AssemblerWordsAndRanges : Prop :=
  ∀ (marker : Byte) (ch b : Nat),
    AsmLine.nop.words marker = some [0#32] ∧
    ((AsmLine.feed ch b).words marker =
      if ch < 256 ∧ b < 256 then some [BitVec.ofNat 32 (0x1 * 2 ^ 28 + ch * 2 ^ 16 + b)] else none) ∧
    ((AsmLine.chrst ch).words marker =
      if ch < 256 then some [BitVec.ofNat 32 (0x2 * 2 ^ 28 + ch * 2 ^ 16)] else none) ∧
    ((AsmLine.rdstat ch).words marker =
      if ch < 256 then some [BitVec.ofNat 32 (0x3 * 2 ^ 28 + ch * 2 ^ 16)] else none) ∧
    ((AsmLine.rdcrc ch).words marker =
      if ch < 256 then some [BitVec.ofNat 32 (0x4 * 2 ^ 28 + ch * 2 ^ 16)] else none) ∧
    ((AsmLine.rddrop ch).words marker =
      if ch < 256 then some [BitVec.ofNat 32 (0x5 * 2 ^ 28 + ch * 2 ^ 16)] else none) ∧
    ((AsmLine.rdhdr ch).words marker =
      if ch < 256 then some [BitVec.ofNat 32 (0x6 * 2 ^ 28 + ch * 2 ^ 16)] else none)

/-- 30_encoding.md R77: `feeds` expands to one FEED a byte, in order, a `<b>*<n>` item standing for `n` copies;
`feedframe` expands to the FEEDs of the reference encoder's bytes, and is refused when the bracket does not hold
exactly `len` bytes. -/
def Obligations.PseudoInstructionsExpand : Prop :=
  (∀ (marker c : Byte) (items : List (Byte × Nat)),
    (AsmLine.feeds c.toNat (items.map fun p => (p.1.toNat, p.2))).assemble marker =
      some ((items.flatMap fun p => List.replicate p.2 p.1).map (Instr.feed c))) ∧
  (∀ (marker c len seq sys comp mid x : Byte) (payload : List Byte),
    (AsmLine.feedframe c.toNat len.toNat seq.toNat sys.toNat comp.toNat mid.toNat
      (payload.map BitVec.toNat) x.toNat).assemble marker =
      if payload.length = len.toNat then
        some ((wireBytes marker len seq sys comp mid payload x).map (Instr.feed c))
      else none)
end

