-- ==== Sys2Proof/Laws/Crc.lean ====
section
/-! SUPPORT. The checksum update (00_scope.md R9): it is linear over XOR, and no two different inputs give one output. -/

namespace Sys2Proof.Machine

/-- One shift distributes over XOR. -/
theorem crcShift_xor (x y : Crc) : crcShift (x ^^^ y) = crcShift x ^^^ crcShift y := by
  have h8 : ∀ p q : Crc, p ^^^ 0x8408#16 ^^^ (q ^^^ 0x8408#16) = p ^^^ q := fun p q => by
    rw [BitVec.xor_comm q, ← BitVec.xor_assoc, BitVec.xor_assoc p, BitVec.xor_self, BitVec.xor_zero]
  simp only [crcShift, BitVec.getLsbD_xor, BitVec.ushiftRight_xor_distrib]
  cases x.getLsbD 0 <;> cases y.getLsbD 0 <;>
    simp only [Bool.xor_true, Bool.xor_false, Bool.not_true, Bool.not_false, Bool.false_eq_true, if_true, if_false, h8]
  · rw [BitVec.xor_assoc]
  · rw [BitVec.xor_assoc, BitVec.xor_assoc, BitVec.xor_comm 0x8408#16]

@[simp] theorem crcShift_zero : crcShift 0#16 = 0#16 := by decide

/-- Bit 15 of a shift is the bit shifted out. -/
theorem crcShift_top (x : Crc) : (crcShift x).getLsbD 15 = x.getLsbD 0 := by
  unfold crcShift
  cases h : x.getLsbD 0 <;> simp

/-- One shift loses nothing: only 0 shifts to 0. -/
theorem crcShift_eq_zero {x : Crc} (h : crcShift x = 0#16) : x = 0#16 := by
  have h0 : x.getLsbD 0 = false := by rw [← crcShift_top, h]; rfl
  have hs : x >>> 1 = 0#16 := by rwa [crcShift, h0, if_neg Bool.false_ne_true] at h
  ext i hi
  rcases Nat.eq_zero_or_pos i with rfl | hp
  · simpa [BitVec.getLsbD_eq_getElem] using h0
  · have := congrArg (fun v : Crc => v.getLsbD (i - 1)) hs
    have hi' : 1 + (i - 1) = i := by omega
    simpa [hi', BitVec.getLsbD_eq_getElem, hi] using this

theorem crcShifts_xor (n : Nat) (x y : Crc) : crcShifts n (x ^^^ y) = crcShifts n x ^^^ crcShifts n y := by
  induction n generalizing x y with
  | zero => rfl
  | succ n ih => simp only [crcShifts, crcShift_xor, ih]

theorem crcShifts_eq_zero {n : Nat} {x : Crc} (h : crcShifts n x = 0#16) : x = 0#16 := by
  induction n generalizing x with
  | zero => exact h
  | succ n ih => exact crcShift_eq_zero (ih h)

theorem crcShifts_injective {n : Nat} {x y : Crc} (h : crcShifts n x = crcShifts n y) : x = y := by
  have : crcShifts n (x ^^^ y) = 0#16 := by rw [crcShifts_xor, h, BitVec.xor_self]
  have := crcShifts_eq_zero this
  rwa [BitVec.xor_eq_zero_iff] at this

/-- For one byte, different running checksums stay different. -/
theorem crcAcc_injective_crc {x y : Crc} {b : Byte} (h : crcAcc x b = crcAcc y b) : x = y :=
  BitVec.xor_right_inj (b.setWidth 16) |>.mp (by
    have := crcShifts_injective h
    rwa [BitVec.xor_comm x, BitVec.xor_comm y] at this)

/-- From one running checksum, different bytes give different checksums. -/
theorem crcAcc_injective_byte {x : Crc} {a b : Byte} (h : crcAcc x a = crcAcc x b) : a = b := by
  have h := (BitVec.xor_right_inj x).mp (crcShifts_injective h)
  have := congrArg (BitVec.setWidth 8) h
  simpa using this

@[simp] theorem crcOver_nil (crc : Crc) : crcOver crc [] = crc := rfl

@[simp] theorem crcOver_cons (crc : Crc) (b : Byte) (bs : List Byte) :
    crcOver crc (b :: bs) = crcOver (crcAcc crc b) bs := rfl

@[simp] theorem crcOver_append (crc : Crc) (as bs : List Byte) :
    crcOver crc (as ++ bs) = crcOver (crcOver crc as) bs := by simp [crcOver]

/-- Over one byte string, different running checksums stay different. -/
theorem crcOver_injective {x y : Crc} {bs : List Byte} (h : crcOver x bs = crcOver y bs) : x = y := by
  induction bs generalizing x y with
  | nil => exact h
  | cons b bs ih => exact crcAcc_injective_crc (ih h)

end Sys2Proof.Machine
end

