-- ==== Sys2Proof/Laws/Decode.lean ====
section
/-! SUPPORT. The fields of a word that was put together from its fields, and what each answer of the decoder says. -/

namespace Sys2Proof

@[simp] theorem opField_mkWord (op : BitVec 4) (ch data : Byte) : opField (mkWord op ch data) = op := by
  ext i hi
  simp only [opField, mkWord, BitVec.getElem_extractLsb', BitVec.getLsbD_append]
  interval_cases i <;> simp [BitVec.getLsbD_eq_getElem]

@[simp] theorem rsv1Field_mkWord (op : BitVec 4) (ch data : Byte) : rsv1Field (mkWord op ch data) = 0#4 := by
  ext i hi
  simp only [rsv1Field, mkWord, BitVec.getElem_extractLsb', BitVec.getLsbD_append]
  interval_cases i <;> simp

@[simp] theorem chField_mkWord (op : BitVec 4) (ch data : Byte) : chField (mkWord op ch data) = ch := by
  ext i hi
  simp only [chField, mkWord, BitVec.getElem_extractLsb', BitVec.getLsbD_append]
  interval_cases i <;> simp [BitVec.getLsbD_eq_getElem]

@[simp] theorem rsv0Field_mkWord (op : BitVec 4) (ch data : Byte) : rsv0Field (mkWord op ch data) = 0#8 := by
  ext i hi
  simp only [rsv0Field, mkWord, BitVec.getElem_extractLsb', BitVec.getLsbD_append]
  interval_cases i <;> simp

@[simp] theorem dataField_mkWord (op : BitVec 4) (ch data : Byte) : dataField (mkWord op ch data) = data := by
  ext i hi
  simp only [dataField, mkWord, BitVec.getElem_extractLsb', BitVec.getLsbD_append]
  interval_cases i <;> simp [BitVec.getLsbD_eq_getElem]

/-- A word is put together from its five fields (30_encoding.md R64). -/
theorem word_eq_fields (w : Word) :
    w = opField w ++ rsv1Field w ++ chField w ++ rsv0Field w ++ dataField w := by
  apply BitVec.eq_of_getLsbD_eq
  intro i hi
  simp only [opField, rsv1Field, chField, rsv0Field, dataField, BitVec.getLsbD_append, BitVec.getLsbD_extractLsb']
  interval_cases i <;> simp

/-- A word whose reserved fields are 0 is put together from its opcode, channel and byte. -/
theorem word_eq_mkWord {w : Word} (h1 : rsv1Field w = 0#4) (h0 : rsv0Field w = 0#8) :
    w = mkWord (opField w) (chField w) (dataField w) := by
  have h := word_eq_fields w
  rwa [h1, h0] at h

/-- Everything decoding can answer: a command, with the word's fields as R66 asks, or the error its fields raise. -/
theorem decode_cases (w : Word) :
    ((opField w).toNat = 0 ∧ decode w =
      if rsv1Field w = 0#4 ∧ chField w = 0#8 ∧ rsv0Field w = 0#8 ∧ dataField w = 0#8 then .ok .nop
      else .error .reservedField) ∨
    ((opField w).toNat = 1 ∧ decode w =
      if rsv1Field w = 0#4 ∧ rsv0Field w = 0#8 then .ok (.feed (chField w) (dataField w))
      else .error .reservedField) ∨
    ((opField w).toNat = 2 ∧ decode w = decodeChannelOnly w .chrst) ∨
    ((opField w).toNat = 3 ∧ decode w = decodeChannelOnly w .rdstat) ∨
    ((opField w).toNat = 4 ∧ decode w = decodeChannelOnly w .rdcrc) ∨
    ((opField w).toNat = 5 ∧ decode w = decodeChannelOnly w .rddrop) ∨
    ((opField w).toNat = 6 ∧ decode w = decodeChannelOnly w .rdhdr) ∨
    (7 ≤ (opField w).toNat ∧ decode w = .error .illegalOpcode) := by
  have hlt := (opField w).isLt
  unfold decode
  generalize (opField w).toNat = n at *
  interval_cases n <;> simp

end Sys2Proof
end

