-- ==== Sys2Proof/Laws/Memory.lean ====
section
/-! SUPPORT. The payload buffer: read after write, the canonical form, and equality of buffers. -/

namespace Sys2Proof.Machine

/-- A canonical buffer's tail is canonical, and its head is its lowest index. -/
theorem Memory.wf_cons {k : Nat} {x : Byte} {rest : Memory} :
    Memory.wf ((k, x) :: rest) ↔
      Memory.wf rest ∧ k < pbSize ∧ x ≠ Memory.unlisted ∧ ∀ c ∈ rest, k < c.1 := by
  simp only [Memory.wf, List.pairwise_cons, List.mem_cons, forall_eq_or_imp]
  tauto

@[simp] theorem Memory.read_nil (a : Nat) : Memory.read [] a = Memory.unlisted := rfl

/-- An index below every listed one reads as unlisted. -/
theorem Memory.read_of_lt {m : Memory} {a : Nat} (h : ∀ c ∈ m, a < c.1) : m.read a = Memory.unlisted := by
  induction m with
  | nil => rfl
  | cons p rest ih =>
    obtain ⟨k, x⟩ := p
    simp only [List.mem_cons, forall_eq_or_imp] at h
    simp [Memory.read, Nat.ne_of_gt h.1, ih h.2]

/-- Reading a buffer from which an index was unlisted. -/
theorem Memory.read_unlist (m : Memory) (a a' : Nat) :
    (m.unlist a).read a' = if a' = a then Memory.unlisted else m.read a' := by
  induction m with
  | nil => simp [Memory.unlist]
  | cons p rest ih =>
    obtain ⟨k, x⟩ := p
    by_cases hk : k = a
    · subst hk
      have : Memory.unlist ((k, x) :: rest) k = Memory.unlist rest k := by simp [Memory.unlist]
      rw [this, ih, Memory.read]
      by_cases e : a' = k
      · simp [e]
      · simp [e, Ne.symm e]
    · have : Memory.unlist ((k, x) :: rest) a = (k, x) :: Memory.unlist rest a := by simp [Memory.unlist, hk]
      rw [this, Memory.read, Memory.read, ih]
      by_cases e : a' = a
      · subst e; simp [hk]
      · simp [e]

/-- Reading a buffer in which an index that was not listed is now listed. -/
theorem Memory.read_list {m : Memory} {a : Nat} (h : ∀ c ∈ m, c.1 ≠ a) (v : Byte) (a' : Nat) :
    (m.list a v).read a' = if a' = a then v else m.read a' := by
  induction m with
  | nil => simp [Memory.list, Memory.read, eq_comm]
  | cons p rest ih =>
    obtain ⟨k, x⟩ := p
    simp only [List.mem_cons, forall_eq_or_imp] at h
    simp only [Memory.list]
    by_cases hk : a < k
    · rw [if_pos hk, Memory.read]
      by_cases e : a' = a
      · simp [e]
      · simp [e, Ne.symm e]
    · rw [if_neg hk, Memory.read, ih h.2, Memory.read]
      by_cases e : a' = a
      · subst e; simp [h.1]
      · simp [e]

theorem Memory.unlist_ne {m : Memory} {a : Nat} : ∀ c ∈ m.unlist a, c.1 ≠ a := by
  intro c hc
  simpa using (List.mem_filter.mp hc).2

/-- Reading after a write: the byte written at its index, and every other byte as before. -/
theorem Memory.read_write (m : Memory) (a a' : Nat) (v : Byte) :
    (m.write a v).read a' = if a' = a then v else m.read a' := by
  unfold Memory.write
  split
  · rename_i hv; rw [Memory.read_unlist, hv]
  · rw [Memory.read_list Memory.unlist_ne, Memory.read_unlist]
    by_cases e : a' = a <;> simp [e]

theorem Memory.unlist_wf {m : Memory} (h : m.wf) (a : Nat) : (m.unlist a).wf :=
  ⟨h.1.filter _, fun c hc => h.2 c (List.mem_filter.mp hc).1⟩

theorem Memory.mem_list {m : Memory} {a : Nat} {v : Byte} {c : Host.Cell} (hc : c ∈ m.list a v) :
    c ∈ m ∨ c = (a, v) := by
  induction m with
  | nil => simpa [Memory.list] using hc
  | cons p rest ih =>
    obtain ⟨k, x⟩ := p
    simp only [Memory.list] at hc
    split at hc
    · rcases List.mem_cons.mp hc with e | e
      · exact .inr e
      · exact .inl e
    · rcases List.mem_cons.mp hc with e | e
      · exact .inl (e ▸ List.mem_cons_self)
      · exact (ih e).imp (List.mem_cons_of_mem _) id

theorem Memory.list_wf {m : Memory} {a : Nat} {v : Byte} (h : m.wf) (hn : ∀ c ∈ m, c.1 ≠ a) (ha : a < pbSize)
    (hv : v ≠ Memory.unlisted) : (m.list a v).wf := by
  induction m with
  | nil => simp [Memory.list, Memory.wf, hv, ha]
  | cons p rest ih =>
    obtain ⟨k, x⟩ := p
    obtain ⟨hw, hk, hx, hlt⟩ := Memory.wf_cons.mp h
    simp only [List.mem_cons, forall_eq_or_imp] at hn
    simp only [Memory.list]
    split
    · rename_i h1
      refine Memory.wf_cons.mpr ⟨h, ha, hv, fun c hc => ?_⟩
      rcases List.mem_cons.mp hc with e | e
      · rw [e]; exact h1
      · exact Nat.lt_trans h1 (hlt c e)
    · rename_i h1
      refine Memory.wf_cons.mpr ⟨ih hw hn.2, hk, hx, fun c hc => ?_⟩
      rcases Memory.mem_list hc with e | e
      · exact hlt c e
      · rw [e]; exact Nat.lt_of_le_of_ne (Nat.not_lt.mp h1) hn.1

/-- Every write to a byte the buffer has keeps the canonical form. -/
theorem Memory.write_wf {m : Memory} (h : m.wf) {a : Nat} (ha : a < pbSize) (v : Byte) : (m.write a v).wf := by
  unfold Memory.write
  split
  · exact Memory.unlist_wf h a
  · rename_i hv; exact Memory.list_wf (Memory.unlist_wf h a) Memory.unlist_ne ha hv

/-- The buffer with nothing listed is canonical. -/
theorem Memory.nil_wf : Memory.wf [] := by simp [Memory.wf]

/-- Canonical buffers that read the same are the same data. -/
theorem Memory.eq_of_read {m n : Memory} (hm : m.wf) (hn : n.wf) (h : ∀ a, m.read a = n.read a) : m = n := by
  induction m generalizing n with
  | nil =>
    cases n with
    | nil => rfl
    | cons p rest =>
      obtain ⟨k, x⟩ := p
      have := h k
      simp [Memory.read, (Memory.wf_cons.mp hn).2.2.1.symm] at this
  | cons p rest ih =>
    obtain ⟨k, x⟩ := p
    obtain ⟨hw, hk, hx, hlt⟩ := Memory.wf_cons.mp hm
    cases n with
    | nil =>
      have := h k
      simp [Memory.read, hx] at this
    | cons q rest' =>
      obtain ⟨k', x'⟩ := q
      obtain ⟨hw', hk', hx', hlt'⟩ := Memory.wf_cons.mp hn
      have hkk : k = k' := by
        rcases Nat.lt_trichotomy k k' with c | c | c
        · have e := h k
          have : Memory.read rest' k = Memory.unlisted :=
            Memory.read_of_lt fun y hy => Nat.lt_trans c (hlt' y hy)
          simp [Memory.read, Nat.ne_of_gt c, this, hx] at e
        · exact c
        · have e := h k'
          have : Memory.read rest k' = Memory.unlisted :=
            Memory.read_of_lt fun y hy => Nat.lt_trans c (hlt y hy)
          simp [Memory.read, Nat.ne_of_gt c, this, hx'.symm] at e
      subst hkk
      have hxx : x = x' := by simpa [Memory.read] using h k
      subst hxx
      refine congrArg _ (ih hw hw' fun a => ?_)
      by_cases e : k = a
      · subst e; rw [Memory.read_of_lt hlt, Memory.read_of_lt hlt']
      · simpa [Memory.read, e] using h a

/-! ### The bytes of a payload -/

@[simp] theorem Memory.take_length (m : Memory) (n : Nat) : (m.take n).length = n := by simp [Memory.take]

theorem Memory.take_getElem? (m : Memory) {n i : Nat} (h : i < n) : (m.take n)[i]? = some (m.read i) := by
  simp [Memory.take, h]

@[simp] theorem Memory.take_zero (m : Memory) : m.take 0 = [] := rfl

theorem Memory.take_succ (m : Memory) (n : Nat) : m.take (n + 1) = m.take n ++ [m.read n] := by
  simp [Memory.take, List.range_succ]

/-- Bytes below `n` decide the first `n` bytes. -/
theorem Memory.take_congr {m m' : Memory} {n : Nat} (h : ∀ i < n, m.read i = m'.read i) : m.take n = m'.take n := by
  simp only [Memory.take]
  exact List.map_congr_left fun i hi => h i (List.mem_range.mp hi)

/-- Storing the next byte extends what has been stored by it. -/
theorem Memory.take_write (m : Memory) (n : Nat) (v : Byte) : (m.write n v).take (n + 1) = m.take n ++ [v] := by
  rw [Memory.take_succ, Memory.read_write, if_pos rfl]
  congr 1
  exact Memory.take_congr fun i hi => by rw [Memory.read_write, if_neg (Nat.ne_of_lt hi)]

end Sys2Proof.Machine
end

