-- ==== Sys2Proof/Laws/State.lean ====
section
/-! SUPPORT. What each update of the state does to each field, by definition. -/

namespace Sys2Proof.Machine

/-! ### Emitting a response -/

@[simp] theorem emit_startMarker (s : State) (r : Response) : (s.emit r).startMarker = s.startMarker := rfl
@[simp] theorem emit_registry (s : State) (r : Response) : (s.emit r).registry = s.registry := rfl
@[simp] theorem emit_channels (s : State) (r : Response) : (s.emit r).channels = s.channels := rfl
@[simp] theorem emit_port (s : State) (r : Response) : (s.emit r).port = s.port := rfl
@[simp] theorem emit_resp (s : State) (r : Response) : (s.emit r).resp = some r := rfl

/-! ### Replacing a channel -/

@[simp] theorem setChannel_startMarker (s : State) (c : Byte) (ch : Channel) : (s.setChannel c ch).startMarker = s.startMarker := rfl
@[simp] theorem setChannel_registry (s : State) (c : Byte) (ch : Channel) : (s.setChannel c ch).registry = s.registry := rfl
@[simp] theorem setChannel_channels (s : State) (c : Byte) (ch : Channel) : (s.setChannel c ch).channels = s.channels.set c.toNat ch := rfl
@[simp] theorem setChannel_port (s : State) (c : Byte) (ch : Channel) : (s.setChannel c ch).port = s.port := rfl
@[simp] theorem setChannel_resp (s : State) (c : Byte) (ch : Channel) : (s.setChannel c ch).resp = s.resp := rfl

/-! ### Presenting command words -/

@[simp] theorem present_startMarker (s : State) (ws : List Word) : (s.present ws).startMarker = s.startMarker := rfl
@[simp] theorem present_registry (s : State) (ws : List Word) : (s.present ws).registry = s.registry := rfl
@[simp] theorem present_channels (s : State) (ws : List Word) : (s.present ws).channels = s.channels := rfl
@[simp] theorem present_port (s : State) (ws : List Word) : (s.present ws).port = ws.map PortEvent.command := rfl
@[simp] theorem present_resp (s : State) (ws : List Word) : (s.present ws).resp = s.resp := rfl
@[simp] theorem presentFirst_startMarker (s : State) (w : Word) : (s.presentFirst w).startMarker = s.startMarker := rfl
@[simp] theorem presentFirst_registry (s : State) (w : Word) : (s.presentFirst w).registry = s.registry := rfl
@[simp] theorem presentFirst_channels (s : State) (w : Word) : (s.presentFirst w).channels = s.channels := rfl
@[simp] theorem presentFirst_port (s : State) (w : Word) : (s.presentFirst w).port = .command w :: s.port := rfl
@[simp] theorem presentFirst_resp (s : State) (w : Word) : (s.presentFirst w).resp = s.resp := rfl

/-! ### Reset -/

@[simp] theorem applyReset_startMarker (s : State) : (applyReset s).startMarker = s.startMarker := rfl
@[simp] theorem applyReset_registry (s : State) : (applyReset s).registry = s.registry := rfl
@[simp] theorem applyReset_channels (s : State) : (applyReset s).channels = s.channels.map resetChannel := rfl
@[simp] theorem applyReset_port (s : State) : (applyReset s).port = s.port := rfl
@[simp] theorem applyReset_resp (s : State) : (applyReset s).resp = none := rfl
@[simp] theorem resetChannel_phase (ch : Channel) : (resetChannel ch).phase = 0#4 := rfl
@[simp] theorem resetChannel_crc (ch : Channel) : (resetChannel ch).crc = 0xFFFF#16 := rfl
@[simp] theorem resetChannel_len (ch : Channel) : (resetChannel ch).len = 0#8 := rfl
@[simp] theorem resetChannel_cnt (ch : Channel) : (resetChannel ch).cnt = 0#8 := rfl
@[simp] theorem resetChannel_seq (ch : Channel) : (resetChannel ch).seq = 0#8 := rfl
@[simp] theorem resetChannel_sys (ch : Channel) : (resetChannel ch).sys = 0#8 := rfl
@[simp] theorem resetChannel_comp (ch : Channel) : (resetChannel ch).comp = 0#8 := rfl
@[simp] theorem resetChannel_msgid (ch : Channel) : (resetChannel ch).msgid = 0#8 := rfl
@[simp] theorem resetChannel_cklo (ch : Channel) : (resetChannel ch).cklo = 0#8 := rfl
@[simp] theorem resetChannel_xtra (ch : Channel) : (resetChannel ch).xtra = 0#8 := rfl
@[simp] theorem resetChannel_dfound (ch : Channel) : (resetChannel ch).dfound = false := rfl
@[simp] theorem resetChannel_lenok (ch : Channel) : (resetChannel ch).lenok = false := rfl
@[simp] theorem resetChannel_drops (ch : Channel) : (resetChannel ch).drops = 0#32 := rfl
@[simp] theorem resetChannel_pb (ch : Channel) : (resetChannel ch).pb = ch.pb := rfl

/-! ### ClearFrame -/

@[simp] theorem clearFrame_phase (ch : Channel) : (clearFrame ch).phase = 0#4 := rfl
@[simp] theorem clearFrame_crc (ch : Channel) : (clearFrame ch).crc = 0xFFFF#16 := rfl
@[simp] theorem clearFrame_len (ch : Channel) : (clearFrame ch).len = 0#8 := rfl
@[simp] theorem clearFrame_cnt (ch : Channel) : (clearFrame ch).cnt = 0#8 := rfl
@[simp] theorem clearFrame_seq (ch : Channel) : (clearFrame ch).seq = 0#8 := rfl
@[simp] theorem clearFrame_sys (ch : Channel) : (clearFrame ch).sys = 0#8 := rfl
@[simp] theorem clearFrame_comp (ch : Channel) : (clearFrame ch).comp = 0#8 := rfl
@[simp] theorem clearFrame_msgid (ch : Channel) : (clearFrame ch).msgid = 0#8 := rfl
@[simp] theorem clearFrame_cklo (ch : Channel) : (clearFrame ch).cklo = 0#8 := rfl
@[simp] theorem clearFrame_xtra (ch : Channel) : (clearFrame ch).xtra = 0#8 := rfl
@[simp] theorem clearFrame_dfound (ch : Channel) : (clearFrame ch).dfound = false := rfl
@[simp] theorem clearFrame_lenok (ch : Channel) : (clearFrame ch).lenok = false := rfl
@[simp] theorem clearFrame_drops (ch : Channel) : (clearFrame ch).drops = ch.drops := rfl
@[simp] theorem clearFrame_pb (ch : Channel) : (clearFrame ch).pb = ch.pb := rfl

/-! ### MSG_ID, and storing a payload byte -/

@[simp] theorem takeMessageId_phase (reg : Registry) (b : Byte) (ch : Channel) : (takeMessageId reg b ch).phase = ch.phase := rfl
@[simp] theorem takeMessageId_crc (reg : Registry) (b : Byte) (ch : Channel) : (takeMessageId reg b ch).crc = crcAcc ch.crc b := rfl
@[simp] theorem takeMessageId_len (reg : Registry) (b : Byte) (ch : Channel) : (takeMessageId reg b ch).len = ch.len := rfl
@[simp] theorem takeMessageId_cnt (reg : Registry) (b : Byte) (ch : Channel) : (takeMessageId reg b ch).cnt = ch.cnt := rfl
@[simp] theorem takeMessageId_seq (reg : Registry) (b : Byte) (ch : Channel) : (takeMessageId reg b ch).seq = ch.seq := rfl
@[simp] theorem takeMessageId_sys (reg : Registry) (b : Byte) (ch : Channel) : (takeMessageId reg b ch).sys = ch.sys := rfl
@[simp] theorem takeMessageId_comp (reg : Registry) (b : Byte) (ch : Channel) : (takeMessageId reg b ch).comp = ch.comp := rfl
@[simp] theorem takeMessageId_msgid (reg : Registry) (b : Byte) (ch : Channel) : (takeMessageId reg b ch).msgid = b := rfl
@[simp] theorem takeMessageId_cklo (reg : Registry) (b : Byte) (ch : Channel) : (takeMessageId reg b ch).cklo = ch.cklo := rfl
@[simp] theorem takeMessageId_xtra (reg : Registry) (b : Byte) (ch : Channel) : (takeMessageId reg b ch).xtra = (latchOf (registryLookup reg b) ch.len).2.1 := rfl
@[simp] theorem takeMessageId_dfound (reg : Registry) (b : Byte) (ch : Channel) : (takeMessageId reg b ch).dfound = (latchOf (registryLookup reg b) ch.len).1 := rfl
@[simp] theorem takeMessageId_lenok (reg : Registry) (b : Byte) (ch : Channel) : (takeMessageId reg b ch).lenok = (latchOf (registryLookup reg b) ch.len).2.2 := rfl
@[simp] theorem takeMessageId_drops (reg : Registry) (b : Byte) (ch : Channel) : (takeMessageId reg b ch).drops = ch.drops := rfl
@[simp] theorem takeMessageId_pb (reg : Registry) (b : Byte) (ch : Channel) : (takeMessageId reg b ch).pb = ch.pb := rfl
@[simp] theorem payloadStore_phase (b : Byte) (ch : Channel) : (payloadStore b ch).phase = ch.phase := rfl
@[simp] theorem payloadStore_crc (b : Byte) (ch : Channel) : (payloadStore b ch).crc = crcAcc ch.crc b := rfl
@[simp] theorem payloadStore_len (b : Byte) (ch : Channel) : (payloadStore b ch).len = ch.len := rfl
@[simp] theorem payloadStore_cnt (b : Byte) (ch : Channel) : (payloadStore b ch).cnt = ch.cnt := rfl
@[simp] theorem payloadStore_seq (b : Byte) (ch : Channel) : (payloadStore b ch).seq = ch.seq := rfl
@[simp] theorem payloadStore_sys (b : Byte) (ch : Channel) : (payloadStore b ch).sys = ch.sys := rfl
@[simp] theorem payloadStore_comp (b : Byte) (ch : Channel) : (payloadStore b ch).comp = ch.comp := rfl
@[simp] theorem payloadStore_msgid (b : Byte) (ch : Channel) : (payloadStore b ch).msgid = ch.msgid := rfl
@[simp] theorem payloadStore_cklo (b : Byte) (ch : Channel) : (payloadStore b ch).cklo = ch.cklo := rfl
@[simp] theorem payloadStore_xtra (b : Byte) (ch : Channel) : (payloadStore b ch).xtra = ch.xtra := rfl
@[simp] theorem payloadStore_dfound (b : Byte) (ch : Channel) : (payloadStore b ch).dfound = ch.dfound := rfl
@[simp] theorem payloadStore_lenok (b : Byte) (ch : Channel) : (payloadStore b ch).lenok = ch.lenok := rfl
@[simp] theorem payloadStore_drops (b : Byte) (ch : Channel) : (payloadStore b ch).drops = ch.drops := rfl
@[simp] theorem payloadStore_pb (b : Byte) (ch : Channel) : (payloadStore b ch).pb = Memory.write ch.pb ch.cnt.toNat b := rfl

/-! ### AbsorbExtra changes `CRC` alone -/

@[simp] theorem absorbExtra_phase (ch : Channel) : (absorbExtra ch).phase = ch.phase := by
  unfold absorbExtra; split <;> rfl
theorem absorbExtra_crc (ch : Channel) :
    (absorbExtra ch).crc = if ch.dfound then crcAcc ch.crc ch.xtra else ch.crc := by
  unfold absorbExtra; split <;> rfl
@[simp] theorem absorbExtra_len (ch : Channel) : (absorbExtra ch).len = ch.len := by
  unfold absorbExtra; split <;> rfl
@[simp] theorem absorbExtra_cnt (ch : Channel) : (absorbExtra ch).cnt = ch.cnt := by
  unfold absorbExtra; split <;> rfl
@[simp] theorem absorbExtra_seq (ch : Channel) : (absorbExtra ch).seq = ch.seq := by
  unfold absorbExtra; split <;> rfl
@[simp] theorem absorbExtra_sys (ch : Channel) : (absorbExtra ch).sys = ch.sys := by
  unfold absorbExtra; split <;> rfl
@[simp] theorem absorbExtra_comp (ch : Channel) : (absorbExtra ch).comp = ch.comp := by
  unfold absorbExtra; split <;> rfl
@[simp] theorem absorbExtra_msgid (ch : Channel) : (absorbExtra ch).msgid = ch.msgid := by
  unfold absorbExtra; split <;> rfl
@[simp] theorem absorbExtra_cklo (ch : Channel) : (absorbExtra ch).cklo = ch.cklo := by
  unfold absorbExtra; split <;> rfl
@[simp] theorem absorbExtra_xtra (ch : Channel) : (absorbExtra ch).xtra = ch.xtra := by
  unfold absorbExtra; split <;> rfl
@[simp] theorem absorbExtra_dfound (ch : Channel) : (absorbExtra ch).dfound = ch.dfound := by
  unfold absorbExtra; split <;> rfl
@[simp] theorem absorbExtra_lenok (ch : Channel) : (absorbExtra ch).lenok = ch.lenok := by
  unfold absorbExtra; split <;> rfl
@[simp] theorem absorbExtra_drops (ch : Channel) : (absorbExtra ch).drops = ch.drops := by
  unfold absorbExtra; split <;> rfl
@[simp] theorem absorbExtra_pb (ch : Channel) : (absorbExtra ch).pb = ch.pb := by
  unfold absorbExtra; split <;> rfl

theorem absorbExtra_eq (ch : Channel) : absorbExtra ch = { ch with crc := (absorbExtra ch).crc } := by
  unfold absorbExtra; split <;> rfl

theorem payloadStore_eq (b : Byte) (ch : Channel) :
    payloadStore b ch = { ch with pb := Memory.write ch.pb ch.cnt.toNat b, crc := crcAcc ch.crc b } := rfl

/-! ### Channels by number -/

@[simp] theorem channel?_emit (s : State) (r : Response) (c : Byte) : (s.emit r).channel? c = s.channel? c := rfl

@[simp] theorem channel?_present (s : State) (ws : List Word) (c : Byte) :
    (s.present ws).channel? c = s.channel? c := rfl

/-- Reading back the channel that was stored. -/
theorem channel?_setChannel_same {s : State} {c : Byte} {ch : Channel} (ch' : Channel) (h : s.channel? c = some ch) :
    (s.setChannel c ch').channel? c = some ch' := by
  have hlt : c.toNat < s.channels.length := (List.getElem?_eq_some_iff.mp h).1
  simp [State.channel?, hlt]

/-- Every other channel is as it was. -/
theorem channels_setChannel_other (s : State) (c : Byte) (ch : Channel) {k : Nat} (hk : c.toNat ≠ k) :
    (s.setChannel c ch).channels[k]? = s.channels[k]? := by
  simp [hk]

/-- Storing a channel keeps the parameters. -/
@[simp] theorem params_setChannel (s : State) (c : Byte) (ch : Channel) : (s.setChannel c ch).params = s.params := by
  simp [State.params]

@[simp] theorem params_emit (s : State) (r : Response) : (s.emit r).params = s.params := rfl

@[simp] theorem params_applyReset (s : State) : (applyReset s).params = s.params := by
  simp [State.params]

/-- Storing back the channel that is there changes nothing. -/
theorem setChannel_self {s : State} {c : Byte} {ch : Channel} (h : s.channel? c = some ch) : s.setChannel c ch = s := by
  obtain ⟨hlt, rfl⟩ := List.getElem?_eq_some_iff.mp h
  simp [State.setChannel, List.set_getElem_self]

end Sys2Proof.Machine
end

