-- ==== Sys2Proof/Laws/Ops.lean ====
section
/-! SUPPORT. One lemma per shared operation: everything it can answer. -/

namespace Sys2Proof.Machine

/-! ### The phase encoding (10_state.md R21) -/

@[simp] theorem phaseOf_code (p : Phase) : phaseOf p.code = some p := by cases p <;> rfl

/-- The encoding is one to one on the nine phases, and 9 to 15 encode none. -/
theorem phaseOf_cases (v : BitVec 4) :
    (∃ p : Phase, v = p.code ∧ phaseOf v = some p) ∨ (9 ≤ v.toNat ∧ phaseOf v = none) := by
  have hlt := v.isLt
  by_cases h : 9 ≤ v.toNat
  · refine .inr ⟨h, ?_⟩
    unfold phaseOf
    generalize v.toNat = n at *
    interval_cases n <;> rfl
  · left
    have hv : v = BitVec.ofNat 4 v.toNat := by simp
    generalize v.toNat = n at *
    subst hv
    interval_cases n
    exacts [⟨.idle, rfl, rfl⟩, ⟨.gotLength, rfl, rfl⟩, ⟨.gotSequence, rfl, rfl⟩, ⟨.gotSystemId, rfl, rfl⟩,
      ⟨.gotComponentId, rfl, rfl⟩, ⟨.gotMessageId, rfl, rfl⟩, ⟨.inPayload, rfl, rfl⟩, ⟨.gotChecksumLow, rfl, rfl⟩,
      ⟨.gotChecksumHigh, rfl, rfl⟩]

/-! ### Counting and clearing -/

/-- `sat_inc` in numbers (00_scope.md R8). -/
theorem satInc_toNat (v : BitVec 32) : (satInc v).toNat = min (v.toNat + 1) (2 ^ 32 - 1) := by
  have := v.isLt
  unfold satInc
  split
  · rw [BitVec.toNat_add_of_lt (by simp only [BitVec.toNat_ofNat]; omega)]
    simp only [BitVec.toNat_ofNat]; omega
  · omega

/-- ClearFrame leaves the reset values, `DROPS` and `PB[c]` (10_state.md R31). -/
theorem clearFrame_eq (ch : Channel) : clearFrame ch = { Channel.reset with drops := ch.drops, pb := ch.pb } := rfl

/-! ### Naming a channel -/

theorem withChannel_some {c : Byte} {s : State} {ch : Channel} (h : s.channel? c = some ch)
    (k : Channel → Host.Outcome State Fault Refusal) : withChannel c s k = k ch := by
  simp only [withChannel, h]

theorem withChannel_none {c : Byte} {s : State} (h : s.channel? c = none)
    (k : Channel → Host.Outcome State Fault Refusal) :
    withChannel c s k = .next (s.emit (Response.error c .badChannel)) := by
  simp only [withChannel, h, raiseCmdError]

/-- A read answers OK with the word read, or BAD_CHANNEL; either way only the response changes. -/
theorem readChannel_cases (c : Byte) (f : Channel → Word) (s : State) :
    (∃ ch, s.channel? c = some ch ∧ readChannel c f s = .next (s.emit (Response.okData c (f ch)))) ∨
    (s.channel? c = none ∧ readChannel c f s = .next (s.emit (Response.error c .badChannel))) := by
  cases h : s.channel? c with
  | some ch => exact .inl ⟨ch, rfl, withChannel_some h _⟩
  | none => exact .inr ⟨rfl, withChannel_none h _⟩

/-- A channel number is valid exactly when it is below `NUM_CHANNELS` (20_memory.md R41). -/
theorem channel?_eq_none {s : State} {c : Byte} : s.channel? c = none ↔ s.channels.length ≤ c.toNat :=
  List.getElem?_eq_none_iff

end Sys2Proof.Machine
end

