-- ==== Sys2Proof/Laws/Feed.lean ====
section
/-! SUPPORT. FEED's state machine, once: which transition each phase takes, and everything a taken byte can leave. -/

namespace Sys2Proof.Machine

/-- The transition a byte takes, by the value of `PHASE` (40_feed.md R100). -/
theorem feedByte_cases (m : Byte) (reg : Registry) (b : Byte) (ch : Channel) :
    (ch.phase = 0#4 ∧ feedByte m reg b ch = feedIdle m b ch) ∨
    (ch.phase = 1#4 ∧ feedByte m reg b ch = feedLength b ch) ∨
    (ch.phase = 2#4 ∧ feedByte m reg b ch = feedSequence b ch) ∨
    (ch.phase = 3#4 ∧ feedByte m reg b ch = feedSystemId b ch) ∨
    (ch.phase = 4#4 ∧ feedByte m reg b ch = feedComponentId b ch) ∨
    (ch.phase = 5#4 ∧ feedByte m reg b ch = feedMessageId reg b ch) ∨
    (ch.phase = 6#4 ∧ feedByte m reg b ch = feedPayload b ch) ∨
    (ch.phase = 7#4 ∧ feedByte m reg b ch = feedChecksumLow b ch) ∨
    (ch.phase = 8#4 ∧ feedByte m reg b ch = feedChecksumHigh m b ch) ∨
    (9 ≤ ch.phase.toNat ∧ feedByte m reg b ch = .error .unusedPhase) := by
  rcases phaseOf_cases ch.phase with ⟨p, hp, hv⟩ | ⟨h9, hv⟩
  · cases p <;> simp only [feedByte, hv] <;> simp [hp, Phase.code]
  · simp [feedByte, hv, h9]

section
variable {m : Byte} {reg : Registry} {b : Byte} {ch : Channel}

theorem feedByte_idle (h : ch.phase = 0#4) : feedByte m reg b ch = feedIdle m b ch := by
  simp [feedByte, h, phaseOf]

theorem feedByte_length (h : ch.phase = 1#4) : feedByte m reg b ch = feedLength b ch := by
  simp [feedByte, h, phaseOf]

theorem feedByte_sequence (h : ch.phase = 2#4) : feedByte m reg b ch = feedSequence b ch := by
  simp [feedByte, h, phaseOf]

theorem feedByte_systemId (h : ch.phase = 3#4) : feedByte m reg b ch = feedSystemId b ch := by
  simp [feedByte, h, phaseOf]

theorem feedByte_componentId (h : ch.phase = 4#4) : feedByte m reg b ch = feedComponentId b ch := by
  simp [feedByte, h, phaseOf]

theorem feedByte_messageId (h : ch.phase = 5#4) : feedByte m reg b ch = feedMessageId reg b ch := by
  simp [feedByte, h, phaseOf]

theorem feedByte_payload (h : ch.phase = 6#4) : feedByte m reg b ch = feedPayload b ch := by
  simp [feedByte, h, phaseOf]

theorem feedByte_checksumLow (h : ch.phase = 7#4) : feedByte m reg b ch = feedChecksumLow b ch := by
  simp [feedByte, h, phaseOf]

theorem feedByte_checksumHigh (h : ch.phase = 8#4) : feedByte m reg b ch = feedChecksumHigh m b ch := by
  simp [feedByte, h, phaseOf]

theorem feedByte_unused (h : 9 ≤ ch.phase.toNat) : feedByte m reg b ch = .error .unusedPhase := by
  rcases phaseOf_cases ch.phase with ⟨p, hp, -⟩ | ⟨-, hv⟩
  · rw [hp] at h; cases p <;> exact absurd h (by decide)
  · simp [feedByte, hv]

/-- Everything a byte that is taken can leave: the phase it was taken in, the channel after it and the outcome. -/
theorem feedByte_ok {ch' : Channel} {o : ParseOutcome} (h : feedByte m reg b ch = .ok (ch', o)) :
    (ch.phase = 0#4 ∧ b = m ∧ o = .incomplete ∧ ch' = { ch with crc := crcInit, phase := 1#4 }) ∨
    (ch.phase = 0#4 ∧ b ≠ m ∧ o = .incomplete ∧ ch' = ch) ∨
    (ch.phase = 1#4 ∧ o = .incomplete ∧ ch' = { ch with len := b, crc := crcAcc ch.crc b, phase := 2#4 }) ∨
    (ch.phase = 2#4 ∧ o = .incomplete ∧ ch' = { ch with seq := b, crc := crcAcc ch.crc b, phase := 3#4 }) ∨
    (ch.phase = 3#4 ∧ o = .incomplete ∧ ch' = { ch with sys := b, crc := crcAcc ch.crc b, phase := 4#4 }) ∨
    (ch.phase = 4#4 ∧ o = .incomplete ∧ ch' = { ch with comp := b, crc := crcAcc ch.crc b, phase := 5#4 }) ∨
    (ch.phase = 5#4 ∧ ch.len = 0#8 ∧ o = .incomplete ∧
      ch' = { absorbExtra (takeMessageId reg b ch) with phase := 7#4 }) ∨
    (ch.phase = 5#4 ∧ ch.len ≠ 0#8 ∧ o = .incomplete ∧
      ch' = { takeMessageId reg b ch with cnt := 0#8, phase := 6#4 }) ∨
    (ch.phase = 6#4 ∧ ch.cnt.toNat < pbSize ∧ ch.cnt.toNat + 1 = ch.len.toNat ∧ o = .incomplete ∧
      ch' = { absorbExtra (payloadStore b ch) with cnt := 0#8, phase := 7#4 }) ∨
    (ch.phase = 6#4 ∧ ch.cnt.toNat < pbSize ∧ ch.cnt.toNat + 1 ≠ ch.len.toNat ∧ o = .incomplete ∧
      ch' = { payloadStore b ch with cnt := ch.cnt + 1#8 }) ∨
    (ch.phase = 7#4 ∧ o = .incomplete ∧ ch' = { ch with cklo := b, phase := 8#4 }) ∨
    (ch.phase = 8#4 ∧ validFrame ch b = true ∧ o = .frameReady (frameOf m b ch) ∧ ch' = clearFrame ch) ∨
    (ch.phase = 8#4 ∧ validFrame ch b = false ∧ o = .frameRejected ∧
      ch' = clearFrame { ch with drops := satInc ch.drops }) := by
  rcases feedByte_cases m reg b ch with ⟨hp, e⟩ | ⟨hp, e⟩ | ⟨hp, e⟩ | ⟨hp, e⟩ | ⟨hp, e⟩ | ⟨hp, e⟩ | ⟨hp, e⟩ | ⟨hp, e⟩ |
      ⟨hp, e⟩ | ⟨hp, e⟩ <;> rw [e] at h
  · unfold feedIdle at h
    split at h <;> obtain ⟨rfl, rfl⟩ := Prod.mk.inj (Except.ok.inj h) <;> simp [Phase.code, *]
  · obtain ⟨rfl, rfl⟩ := Prod.mk.inj (Except.ok.inj h); simp [hp, Phase.code]
  · obtain ⟨rfl, rfl⟩ := Prod.mk.inj (Except.ok.inj h); simp [hp, Phase.code]
  · obtain ⟨rfl, rfl⟩ := Prod.mk.inj (Except.ok.inj h); simp [hp, Phase.code]
  · obtain ⟨rfl, rfl⟩ := Prod.mk.inj (Except.ok.inj h); simp [hp, Phase.code]
  · unfold feedMessageId at h
    split at h <;> rename_i hl <;> obtain ⟨rfl, rfl⟩ := Prod.mk.inj (Except.ok.inj h) <;> simp [hp, hl, Phase.code]
  · unfold feedPayload payloadAdvance at h
    split at h
    · rename_i hlt
      obtain ⟨rfl, rfl⟩ := Prod.mk.inj (Except.ok.inj h)
      by_cases hl : ch.cnt.toNat + 1 = ch.len.toNat <;> simp [hp, hlt, hl, Phase.code]
    · cases h
  · obtain ⟨rfl, rfl⟩ := Prod.mk.inj (Except.ok.inj h); simp [hp, Phase.code]
  · unfold feedChecksumHigh at h
    split at h <;> rename_i hv <;> obtain ⟨rfl, rfl⟩ := Prod.mk.inj (Except.ok.inj h) <;> simp_all
  · cases h

/-- `Valid(c, b)` (40_feed.md R112). -/
theorem validFrame_iff : validFrame ch b = true ↔ ch.dfound = true ∧ ch.lenok = true ∧ b ++ ch.cklo = ch.crc := by
  simp only [validFrame, receivedChecksum, Bool.and_eq_true, and_assoc]
  exact and_congr_right fun _ => and_congr_right fun _ => decide_eq_true_iff

/-- The two ways a byte is not taken. -/
theorem feedByte_error {e : Fault} (h : feedByte m reg b ch = .error e) :
    (9 ≤ ch.phase.toNat ∧ e = .unusedPhase) ∨ (ch.phase = 6#4 ∧ pbSize ≤ ch.cnt.toNat ∧ e = .payloadIndex) := by
  rcases feedByte_cases m reg b ch with ⟨hp, q⟩ | ⟨hp, q⟩ | ⟨hp, q⟩ | ⟨hp, q⟩ | ⟨hp, q⟩ | ⟨hp, q⟩ | ⟨hp, q⟩ | ⟨hp, q⟩ |
      ⟨hp, q⟩ | ⟨hp, q⟩ <;> rw [q] at h
  · unfold feedIdle at h; split at h <;> cases h
  · cases h
  · cases h
  · cases h
  · cases h
  · unfold feedMessageId at h; split at h <;> cases h
  · unfold feedPayload at h
    split at h
    · cases h
    · rename_i hc
      exact .inr ⟨hp, Nat.not_lt.mp hc, (Except.error.inj h).symm⟩
  · cases h
  · unfold feedChecksumHigh at h; split at h <;> cases h
  · exact .inl ⟨hp, (Except.error.inj h).symm⟩

end

end Sys2Proof.Machine
end

