-- ==== Sys2Proof/Laws/Exec.lean ====
section
/-! SUPPORT. Everything a command, and everything a step, can do. -/

namespace Sys2Proof.Machine

theorem exec_feed {s : State} {c : Byte} {ch : Channel} (h : s.channel? c = some ch) (b : Byte) :
    exec (.feed c b) s = feedOutcome c s (feedByte s.startMarker s.registry b ch) := withChannel_some h _

theorem exec_feed_ok {s : State} {c b : Byte} {ch ch' : Channel} {o : ParseOutcome} (h : s.channel? c = some ch)
    (hf : feedByte s.startMarker s.registry b ch = .ok (ch', o)) :
    exec (.feed c b) s = .next ((s.setChannel c ch').emit (Response.ofOutcome c o)) := by
  rw [exec_feed h, hf]; rfl

theorem exec_chrst {s : State} {c : Byte} {ch : Channel} (h : s.channel? c = some ch) :
    exec (.chrst c) s = .next ((s.setChannel c (clearFrame ch)).emit (Response.done c)) := withChannel_some h _

/-- Any command on a channel number at or above `NUM_CHANNELS` (60_exceptions.md R163). -/
theorem exec_badChannel {s : State} {i : Instr} {c : Byte} (hi : i.channel? = some c) (h : s.channel? c = none) :
    exec i s = .next (s.emit (Response.error c .badChannel)) := by
  cases i <;> simp only [Instr.channel?, Option.some.injEq, reduceCtorEq] at hi <;> subst hi <;>
    exact withChannel_none h _

/-- The word a status read reads from its channel; the other commands read none. -/
def readWord (i : Instr) (ch : Channel) : Option Word :=
  match i with
  | .nop => none
  | .feed _ _ => none
  | .chrst _ => none
  | .rdstat _ => some (statWord ch)
  | .rdcrc _ => some (crcWord ch)
  | .rddrop _ => some (dropWord ch)
  | .rdhdr _ => some (hdrWord ch)

/-- A status read of an existing channel. -/
theorem exec_read {s : State} {i : Instr} {c : Byte} {ch : Channel} {d : Word} (hi : i.channel? = some c)
    (h : s.channel? c = some ch) (hd : readWord i ch = some d) : exec i s = .next (s.emit (Response.okData c d)) := by
  cases i <;> simp only [Instr.channel?, Option.some.injEq, reduceCtorEq, readWord] at hi hd <;> subst hi <;> subst hd <;>
    exact withChannel_some h _

/-- Everything a command can do. -/
theorem exec_cases (i : Instr) (s : State) :
    (i = .nop ∧ exec i s = .next (s.emit (Response.done 0#8))) ∨
    (∃ c, i.channel? = some c ∧ s.channel? c = none ∧ exec i s = .next (s.emit (Response.error c .badChannel))) ∨
    (∃ c ch d, i.channel? = some c ∧ s.channel? c = some ch ∧ readWord i ch = some d ∧
      exec i s = .next (s.emit (Response.okData c d))) ∨
    (∃ c ch, i = .chrst c ∧ s.channel? c = some ch ∧
      exec i s = .next ((s.setChannel c (clearFrame ch)).emit (Response.done c))) ∨
    (∃ c b ch ch' o, i = .feed c b ∧ s.channel? c = some ch ∧
      feedByte s.startMarker s.registry b ch = .ok (ch', o) ∧
      exec i s = .next ((s.setChannel c ch').emit (Response.ofOutcome c o))) ∨
    (∃ c b ch e, i = .feed c b ∧ s.channel? c = some ch ∧
      feedByte s.startMarker s.registry b ch = .error e ∧ exec i s = .fault e) := by
  cases hi : i.channel? with
  | none =>
    cases i <;> simp only [Instr.channel?, reduceCtorEq] at hi
    exact .inl ⟨rfl, rfl⟩
  | some c =>
    cases h : s.channel? c with
    | none => exact .inr (.inl ⟨c, rfl, h, exec_badChannel hi h⟩)
    | some ch =>
      cases hd : readWord i ch with
      | some d => exact .inr (.inr (.inl ⟨c, ch, d, rfl, h, hd, exec_read hi h hd⟩))
      | none =>
        cases i <;> simp only [readWord, reduceCtorEq, Instr.channel?, Option.some.injEq] at hd hi <;> subst hi
        · rename_i b
          right; right; right; right
          cases hf : feedByte s.startMarker s.registry b ch with
          | ok p => exact .inl ⟨_, b, ch, p.1, p.2, rfl, h, hf, exec_feed_ok h hf⟩
          | error e => exact .inr ⟨_, b, ch, e, rfl, h, hf, by rw [exec_feed h, hf]; rfl⟩
        · exact .inr (.inr (.inr (.inl ⟨_, ch, rfl, h, exec_chrst h⟩)))

/-- A command that answers a next state: it emits one response and stores back at most the channel it names. -/
theorem exec_next {i : Instr} {s t : State} (h : exec i s = .next t) :
    ∃ r, t = s.emit r ∨ ∃ c ch ch', i.channel? = some c ∧ s.channel? c = some ch ∧ t = (s.setChannel c ch').emit r := by
  rcases exec_cases i s with ⟨-, e⟩ | ⟨c, -, -, e⟩ | ⟨c, ch, d, -, -, -, e⟩ | ⟨c, ch, hi, hc, e⟩ |
      ⟨c, b, ch, ch', o, hi, hc, -, e⟩ | ⟨c, b, ch, f, -, -, -, e⟩ <;> rw [e] at h
  · exact ⟨_, .inl (Host.Outcome.next.inj h).symm⟩
  · exact ⟨_, .inl (Host.Outcome.next.inj h).symm⟩
  · exact ⟨_, .inl (Host.Outcome.next.inj h).symm⟩
  · exact ⟨_, .inr ⟨c, ch, _, by rw [hi]; rfl, hc, (Host.Outcome.next.inj h).symm⟩⟩
  · exact ⟨_, .inr ⟨c, ch, _, by rw [hi]; rfl, hc, (Host.Outcome.next.inj h).symm⟩⟩
  · cases h

/-- A command neither reads nor writes what is still to come on the port, nor reads the last response. -/
theorem exec_port (i : Instr) (s : State) (p : List PortEvent) (r : Option Response) :
    exec i { s with port := p, resp := r } =
      match exec i s with
      | .next t => .next { t with port := p }
      | .fault e => .fault e
      | .refused e => .refused e := by
  have hc : ∀ c, ({ s with port := p, resp := r } : State).channel? c = s.channel? c := fun _ => rfl
  rcases exec_cases i s with ⟨rfl, e⟩ | ⟨c, hi, h, e⟩ | ⟨c, ch, d, hi, h, hd, e⟩ | ⟨c, ch, rfl, h, e⟩ |
      ⟨c, b, ch, ch', o, rfl, h, hf, e⟩ | ⟨c, b, ch, f, rfl, h, hf, e⟩ <;> rw [e]
  · rfl
  · exact exec_badChannel hi ((hc c).trans h)
  · exact exec_read hi ((hc c).trans h) hd
  · exact exec_chrst ((hc c).trans h)
  · exact exec_feed_ok ((hc c).trans h) hf
  · rw [exec_feed ((hc c).trans h)]; show feedOutcome _ _ (feedByte s.startMarker s.registry b ch) = _; rw [hf]; rfl

/-- Everything a step can do. -/
theorem step_cases (s : State) :
    (s.port = [] ∧ step s = .next { s with resp := none }) ∨
    (∃ rest, s.port = .reset :: rest ∧ step s = .next (applyReset { s with port := rest })) ∨
    (∃ w rest i, s.port = .command w :: rest ∧ decode w = .ok i ∧ step s = exec i { s with port := rest }) ∨
    (∃ w rest e, s.port = .command w :: rest ∧ decode w = .error e ∧
      step s = .next (({ s with port := rest } : State).emit (Response.error (chField w) (cmdErrorOf e)))) := by
  unfold step takeEvent
  split
  · rename_i h; exact .inl ⟨h, rfl⟩
  · rename_i rest h; exact .inr (.inl ⟨rest, h, rfl⟩)
  · rename_i w rest h
    right; right
    unfold runWord
    cases hd : decode w with
    | ok i => exact .inl ⟨w, rest, i, h, hd, rfl⟩
    | error e => exact .inr ⟨w, rest, e, h, hd, rfl⟩

end Sys2Proof.Machine
end

