-- ==== Sys2Proof/Laws/Observe.lean ====
section
/-! SUPPORT. Runs over several commands: one step at a time, and a stream of bytes on one channel. -/

namespace Sys2Proof.Machine

@[simp] theorem observe_zero (s : State) : observe 0 s = some ([], s) := rfl

/-- A step that answers a next state, then the rest. -/
theorem observe_succ {s t : State} (k : Nat) (h : step s = .next t) :
    observe (k + 1) s = (observe k t).map fun p => (t.resp.toList ++ p.1, p.2) := by simp only [observe, h]

@[simp] theorem observeWords_nil (s : State) : observeWords [] s = some ([], s.present []) := rfl

/-- One command word, then the rest, when the word decodes and its command answers a next state. -/
theorem observeWords_cons {s t : State} {w : Word} {i : Instr} (ws : List Word) (hd : decode w = .ok i)
    (h : exec i s = .next t) :
    observeWords (w :: ws) s = (observeWords ws t).map fun p => (t.resp.toList ++ p.1, p.2) := by
  have hs : step (s.present (w :: ws)) = .next (t.present ws) := by
    have e := exec_port i s (ws.map PortEvent.command) s.resp
    rw [h] at e
    simpa [step, takeEvent, runWord, State.present, hd] using e
  exact observe_succ _ hs

/-- A FEED word decodes to its FEED. -/
theorem decode_feedWord (c b : Byte) : decode (encode (.feed c b)) = .ok (.feed c b) := by
  simp [encode, decode, Instr.opcode]

/-- A channel that takes the bytes `bs`: the channel after them and the outcome of each, or the fault that stops it. -/
def feedAll (m : Byte) (reg : Registry) (bs : List Byte) (ch : Channel) : Except Fault (Channel × List ParseOutcome) :=
  match bs with
  | [] => .ok (ch, [])
  | b :: rest =>
    match feedByte m reg b ch with
    | .error e => .error e
    | .ok (ch', o) =>
      match feedAll m reg rest ch' with
      | .error e => .error e
      | .ok (ch'', os) => .ok (ch'', o :: os)

/-- Taking one byte and then the rest. -/
theorem feedAll_cons {m : Byte} {reg : Registry} {b : Byte} {bs : List Byte} {ch ch' ch'' : Channel} {o : ParseOutcome}
    {os : List ParseOutcome} (h : feedByte m reg b ch = .ok (ch', o)) (hr : feedAll m reg bs ch' = .ok (ch'', os)) :
    feedAll m reg (b :: bs) ch = .ok (ch'', o :: os) := by simp [feedAll, h, hr]

/-- Taking one part of a stream and then the other. -/
theorem feedAll_append {m : Byte} {reg : Registry} {as bs : List Byte} {ch ch' ch'' : Channel} {os os' : List ParseOutcome}
    (h : feedAll m reg as ch = .ok (ch', os)) (hr : feedAll m reg bs ch' = .ok (ch'', os')) :
    feedAll m reg (as ++ bs) ch = .ok (ch'', os ++ os') := by
  induction as generalizing ch os with
  | nil => obtain ⟨rfl, rfl⟩ := Prod.mk.inj (Except.ok.inj h); exact hr
  | cons a as ih =>
    simp only [feedAll] at h
    split at h
    · cases h
    · rename_i c1 o1 h1
      split at h
      · cases h
      · rename_i c2 os2 h2
        obtain ⟨rfl, rfl⟩ := Prod.mk.inj (Except.ok.inj h)
        exact feedAll_cons h1 (ih h2)

/-- What a host sees of a stream fed to channel `c` is what the channel's state machine answers, byte by byte. -/
theorem observeFeeds_eq {s : State} {c : Byte} {bs : List Byte} {ch ch' : Channel} {os : List ParseOutcome}
    (hc : s.channel? c = some ch) (h : feedAll s.startMarker s.registry bs ch = .ok (ch', os)) :
    ∃ t, observeFeeds c bs s = some (os.map (Response.ofOutcome c), t) ∧ t.channels = s.channels.set c.toNat ch' ∧
      t.params = s.params := by
  induction bs generalizing s ch os with
  | nil =>
    obtain ⟨rfl, rfl⟩ := Prod.mk.inj (Except.ok.inj h)
    exact ⟨s.present [], rfl, (congrArg State.channels (setChannel_self hc)).symm, rfl⟩
  | cons b bs ih =>
    simp only [feedAll] at h
    split at h
    · cases h
    · rename_i c1 o1 h1
      split at h
      · cases h
      · rename_i c2 os2 h2
        obtain ⟨rfl, rfl⟩ := Prod.mk.inj (Except.ok.inj h)
        have hx := exec_feed_ok hc h1
        obtain ⟨t, ht, hch, hp⟩ := ih (s := (s.setChannel c c1).emit (Response.ofOutcome c o1))
          (channel?_setChannel_same c1 hc) h2
        refine ⟨t, ?_, by simpa using hch, by simpa using hp⟩
        have e := observeWords_cons (feedWords c bs) (decode_feedWord c b) hx
        have ht' : observeWords (feedWords c bs) _ = _ := ht
        rw [ht'] at e
        exact e

end Sys2Proof.Machine
end

