-- ==== Sys2Proof/Laws/PerInstr.lean ====
section
/-! SUPPORT. Statements about every command as syntax, one lemma per constructor: what the fields of its word hold
(30_encoding.md R64, R66). -/

namespace Sys2Proof.Laws.FieldsOfEncoding

/-- The word of `i` holds the opcode of `i`, 0 in both reserved fields, and the channel `i` names (0 when it names none). -/
def Statement (i : Instr) : Prop :=
  opField (encode i) = i.opcode ∧ rsv1Field (encode i) = 0#4 ∧ rsv0Field (encode i) = 0#8 ∧
    chField (encode i) = i.channel?.getD 0#8

theorem nop : Statement .nop := by simp [Statement, encode, Instr.channel?]

theorem feed (ch data : Byte) : Statement (.feed ch data) := by simp [Statement, encode, Instr.channel?]

theorem chrst (ch : Byte) : Statement (.chrst ch) := by simp [Statement, encode, Instr.channel?]

theorem rdstat (ch : Byte) : Statement (.rdstat ch) := by simp [Statement, encode, Instr.channel?]

theorem rdcrc (ch : Byte) : Statement (.rdcrc ch) := by simp [Statement, encode, Instr.channel?]

theorem rddrop (ch : Byte) : Statement (.rddrop ch) := by simp [Statement, encode, Instr.channel?]

theorem rdhdr (ch : Byte) : Statement (.rdhdr ch) := by simp [Statement, encode, Instr.channel?]

end Sys2Proof.Laws.FieldsOfEncoding
end

