-- ==== Sys2Proof/Laws/Wire.lean ====
section
/-! SUPPORT. Byte strings laid out as a frame (30_encoding.md R60), and when a frame is well formed (R61). -/

namespace Sys2Proof.Machine

/-- The conditions of R61, one by one. -/
theorem Frame.wellFormed_iff {marker : Byte} {reg : Registry} {f : Frame} :
    f.wellFormed marker reg = true ↔
      f.startMarker = marker ∧
        ∃ d, registryLookup reg f.messageId = some d ∧ d.payloadLength = f.payloadLength ∧ f.checksum = f.crc d.crcExtra := by
  unfold Frame.wellFormed
  rw [Bool.and_eq_true, decide_eq_true_iff]
  refine and_congr_right fun _ => ?_
  cases registryLookup reg f.messageId with
  | none => simp
  | some d => simp

/-- What a byte string laid out as a frame looks like: five header bytes after the first, the payload, and the checksum
low byte first. -/
theorem layoutFrame_some {bs : List Byte} {f : Frame} (h : layoutFrame bs = some f) :
    ∃ lo hi : Byte, f.payload.length = f.payloadLength.toNat ∧ f.checksum = hi ++ lo ∧
      bs = [f.startMarker, f.payloadLength, f.sequence, f.systemId, f.componentId, f.messageId] ++ f.payload ++ [lo, hi] := by
  unfold layoutFrame at h
  split at h
  · rename_i st len seq sys comp mid rest
    split at h
    · rename_i hl
      obtain rfl := Option.some.inj h
      refine ⟨rest.getD len.toNat 0#8, rest.getD (len.toNat + 1) 0#8, by simp [hl], rfl, ?_⟩
      have h0 : len.toNat < rest.length := by omega
      have h1 : len.toNat + 1 < rest.length := by omega
      have hd : rest.drop len.toNat = [rest[len.toNat], rest[len.toNat + 1]] := by
        rw [List.drop_eq_getElem_cons h0, List.drop_eq_getElem_cons h1, List.drop_eq_nil_of_le (by omega)]
      have hs := (List.take_append_drop len.toNat rest).symm
      rw [hd] at hs
      simpa [h0, h1] using hs
    · cases h
  · cases h

/-- The fields of a byte string put together from fields. -/
theorem layoutFrame_mk (st len seq sys comp mid lo hi : Byte) {payload : List Byte} (h : payload.length = len.toNat) :
    layoutFrame ([st, len, seq, sys, comp, mid] ++ payload ++ [lo, hi]) =
      some ⟨st, len, seq, sys, comp, mid, payload, hi ++ lo⟩ := by
  simp only [layoutFrame, List.cons_append, List.nil_append, List.length_append, List.length_cons, List.length_nil, h,
    if_true]
  simp [← h]

end Sys2Proof.Machine
end

