-- ==== Sys2Proof/Tests/Slice0.lean ====
section
/-! SUPPORT. Tests with expected values from 95_test_vectors.md and the rules' own examples, the smoke tests of
well-formedness, and a witness for the hypotheses of every statement of Certificates/Slice0/Obligations.lean. -/

namespace Sys2Proof.Tests

open Sys2Proof Sys2Proof.Machine

/-! ### Small states -/

/-- The state an outcome answers, when it answers one. -/
def nextOf (o : Host.Outcome State Fault Refusal) : Option State :=
  match o with
  | .next s => some s
  | .fault _ => none
  | .refused _ => none

/-- The fault an outcome answers, when it answers one. -/
def faultOf (o : Host.Outcome State Fault Refusal) : Option Fault :=
  match o with
  | .next _ => none
  | .fault e => some e
  | .refused _ => none

/-- The response of the step that an outcome answers. -/
def respOf (o : Host.Outcome State Fault Refusal) : Option Response := (nextOf o).bind fun s => s.resp

/-- Channel `k` after the step that an outcome answers. -/
def chanOf (o : Host.Outcome State Fault Refusal) (k : Nat) : Option Channel := (nextOf o).bind fun s => s.channels[k]?

/-- The test configuration (95_test_vectors.md section 1) with channel 0 holding `ch` and channel 1 in reset. -/
def on0 (ch : Channel) : State := { State.reset with channels := [ch, Channel.reset] }

/-- The response to a word presented next from reset. -/
def answer (w : Word) : Option Response := respOf (step (State.reset.presentFirst w))

/-- GOT_LENGTH after START. -/
def gotLength : Channel := { Channel.reset with phase := 1#4 }

/-- Vector V1 after byte 5. -/
def v1MessageId : Channel :=
  { Channel.reset with phase := 5#4, crc := 0x17CB#16, len := 1#8, seq := 0#8, sys := 1#8, comp := 1#8 }

/-- Vector V1 after byte 6. -/
def v1Payload : Channel :=
  { v1MessageId with phase := 6#4, crc := 0x5082#16, msgid := 185#8, dfound := true, lenok := true, xtra := 0x91#8 }

/-- Vector V1 after byte 7. -/
def v1Low : Channel := { v1Payload with phase := 7#4, crc := 0x7C95#16, pb := [(0, 0x7B#8)] }

/-- Vector V1 after byte 8. -/
def v1High : Channel := { v1Low with phase := 8#4, cklo := 0x95#8 }

/-- Vector V2 after byte 5. -/
def v2MessageId : Channel :=
  { Channel.reset with phase := 5#4, crc := 0x0B70#16, sys := 1#8, comp := 1#8 }

/-- Vector V3 after byte 5. -/
def v3MessageId : Channel :=
  { Channel.reset with phase := 5#4, crc := 0x30AA#16, len := 1#8, seq := 7#8, sys := 255#8, comp := 190#8 }

/-- Vector V4 after byte 7. -/
def v4Payload : Channel :=
  { Channel.reset with
    phase := 6#4, crc := 0xA6ED#16, len := 3#8, cnt := 1#8, seq := 0x10#8, sys := 2#8, comp := 3#8, msgid := 0x2A#8
    xtra := 0x4D#8, dfound := true, lenok := true, pb := [(0, 0xFE#8)] }

/-- A channel in IDLE that has rejected frames and holds stale payload bytes. -/
def usedIdle : Channel := { Channel.reset with drops := 7#32, pb := [(0, 0x7B#8), (254, 0x01#8)] }

/-- The bytes of vector V1. -/
def v1Bytes : List Byte := [0xFE#8, 0x01#8, 0x00#8, 0x01#8, 0x01#8, 0xB9#8, 0x7B#8, 0x95#8, 0x7C#8]

/-- The frame of vector V1. -/
def v1Frame : Frame :=
  { startMarker := 0xFE#8, payloadLength := 1#8, sequence := 0#8, systemId := 1#8, componentId := 1#8, messageId := 185#8
    payload := [0x7B#8], checksum := 0x7C95#16 }

/-! ### Well-formedness: an ill-formed term that each check refuses -/

theorem test_wf_channel_in_range : Instr.wf 2 (.feed 1#8 0xFF#8) = true := by decide
theorem test_wf_refuses_channel_number : Instr.wf 2 (.feed 2#8 0#8) = false := by decide
theorem test_wf_refuses_channel_255 : Instr.wf 255 (.rdhdr 255#8) = false := by decide
theorem test_params_wf : Params.testConfiguration.wf := by decide
theorem test_params_refuses_no_channel : ¬ Params.wf ⟨0, 0#8, []⟩ := by decide
theorem test_params_refuses_257_channels : ¬ Params.wf ⟨257, 0#8, []⟩ := by decide
theorem test_registry_refuses_two_descriptors : ¬ Registry.wf [⟨5#8, 0#8, 1#8⟩, ⟨5#8, 1#8, 1#8⟩] := by decide
theorem test_registry_refuses_falling_ids : ¬ Registry.wf [⟨6#8, 0#8, 1#8⟩, ⟨5#8, 1#8, 1#8⟩] := by decide
theorem test_memory_refuses_listed_zero : ¬ Memory.wf [(3, 0x00#8)] := by decide
theorem test_memory_refuses_index_255 : ¬ Memory.wf [(255, 0x01#8)] := by decide

/-! ### Decoding: words written out from R64 and R66 (R78 where it has the word) -/

theorem test_decode_nop : decode 0x00000000#32 = .ok .nop := rfl
theorem test_decode_feed : decode 0b00010000000000010000000001111011#32 = .ok (.feed 1#8 0x7B#8) := rfl
theorem test_decode_chrst : decode 0b00100000000000010000000000000000#32 = .ok (.chrst 1#8) := rfl
theorem test_decode_rdstat : decode 0x30000000#32 = .ok (.rdstat 0#8) := rfl
theorem test_decode_rdcrc : decode 0x40020000#32 = .ok (.rdcrc 2#8) := rfl
theorem test_decode_rddrop : decode 0x50FF0000#32 = .ok (.rddrop 255#8) := rfl
theorem test_decode_rdhdr : decode 0x60030000#32 = .ok (.rdhdr 3#8) := rfl
theorem test_decode_illegal_first : decode 0x70000000#32 = .error .illegalOpcode := rfl
theorem test_decode_illegal_before_reserved : decode 0xF01000FE#32 = .error .illegalOpcode := rfl
theorem test_decode_feed_rsv0 : decode 0x10000100#32 = .error .reservedField := rfl
theorem test_decode_feed_rsv1 : decode 0x11000000#32 = .error .reservedField := rfl
theorem test_decode_nop_channel : decode 0x00010000#32 = .error .reservedField := rfl
theorem test_decode_chrst_data : decode 0x20000001#32 = .error .reservedField := rfl
theorem test_decode_rdhdr_rsv0 : decode 0x60008000#32 = .error .reservedField := rfl
theorem test_table_word : decodeTableWord 32 0x100000FE = some (.feed 0#8 0xFE#8) := rfl

/-! ### The checksum: 95_test_vectors.md section 3 -/

theorem test_crc_ffff_7b : crcAcc 0xFFFF#16 0x7B#8 = 0xC2D3#16 := by decide
theorem test_crc_0000_ff : crcAcc 0x0000#16 0xFF#8 = 0x0F78#16 := by decide
theorem test_crc_bytewise : crcAccBytewise 0xFFFF#16 0xFE#8 = 0x1176#16 := by decide
theorem test_crc_check_value :
    crcOver 0xFFFF#16 [0x31#8, 0x32#8, 0x33#8, 0x34#8, 0x35#8, 0x36#8, 0x37#8, 0x38#8, 0x39#8] = 0x6F91#16 := by decide +kernel
theorem test_frame_crc : frameCrc 1#8 0#8 1#8 1#8 0xB9#8 [0x7B#8] 0x91#8 = 0x7C95#16 := by decide +kernel
theorem test_wire_bytes : wireBytes 0xFE#8 1#8 7#8 255#8 190#8 185#8 [0x7B#8] 145#8 =
    [0xFE#8, 0x01#8, 0x07#8, 0xFF#8, 0xBE#8, 0xB9#8, 0x7B#8, 0x3F#8, 0x4D#8] := by decide +kernel

/-! ### One step of each command -/

/-- The word placed by `withFetchWord` is the one the next step runs. -/
theorem test_fetch_word : respOf (step (State.reset.withFetchWord 32 0x40010000)) =
    some ⟨.ok, 0#8, 1#8, 0x0000FFFF#32, none⟩ := by decide

/-- V13: NOP. -/
theorem test_nop : answer 0x00000000#32 = some ⟨.ok, 0#8, 0#8, 0#32, none⟩ := by decide

/-- V1 byte 7: the payload byte and XTRA are both absorbed. -/
theorem test_feed_last_payload_byte : chanOf (exec (.feed 0#8 0x7B#8) (on0 v1Payload)) 0 = some v1Low := by decide +kernel

/-- V1 byte 9: the frame is emitted. -/
theorem test_feed_accepts : respOf (exec (.feed 0#8 0x7C#8) (on0 v1High)) =
    some ⟨.frameReady, 0#8, 0#8, 0#32, some v1Frame⟩ := by decide

/-- V11: CHRST mid-frame. -/
theorem test_chrst : chanOf (exec (.chrst 0#8) (on0 { v4Payload with drops := 3#32 })) 0 =
    some { Channel.reset with drops := 3#32, pb := [(0, 0xFE#8)] } := by decide

/-- V14: RDSTAT after V4 byte 7. -/
theorem test_rdstat : respOf (exec (.rdstat 0#8) (on0 v4Payload)) = some ⟨.ok, 0#8, 0#8, 0x2A030136#32, none⟩ := by decide

/-- V14: RDCRC after V1 byte 8. -/
theorem test_rdcrc : respOf (exec (.rdcrc 0#8) (on0 v1High)) = some ⟨.ok, 0#8, 0#8, 0x91957C95#32, none⟩ := by decide

/-- V12: DROPS stays at its largest value. -/
theorem test_rddrop_saturated : (chanOf (exec (.feed 0#8 0xFE#8) (on0 { v1High with drops := 0xFFFFFFFF#32 })) 0).map
    (fun ch => dropWord ch) = some 0xFFFFFFFF#32 := by decide

/-- V14: RDHDR after V3 byte 5. -/
theorem test_rdhdr : respOf (exec (.rdhdr 0#8) (on0 v3MessageId)) = some ⟨.ok, 0#8, 0#8, 0x00BEFF07#32, none⟩ := by decide

/-- V2 byte 6: with LEN 0 the phase goes from 5 to 7, and the checksum absorbs the extra. -/
theorem test_feed_zero_length : (chanOf (exec (.feed 0#8 0x00#8) (on0 v2MessageId)) 0).map (fun ch => (ch.phase, ch.crc)) =
    some (7#4, 0x5C86#16) := by decide +kernel

/-- V16: a FEED on channel 1 leaves channel 0. -/
theorem test_feed_other_channel : chanOf (exec (.feed 1#8 0xFE#8) State.reset) 0 = some Channel.reset := by decide

/-- Reset keeps the payload buffer and clears DROPS (10_state.md R30, 70_reset_and_hazards.md R180). -/
theorem test_reset_event : chanOf (step { on0 usedIdle with port := [.reset] }) 0 =
    some { Channel.reset with pb := usedIdle.pb } := by decide

/-! ### The payload buffer, the registry and the assembler -/

theorem test_memory_write_zero_unlists : Memory.write [(0, 1#8), (7, 2#8)] 7 0#8 = [(0, 1#8)] := by decide
theorem test_memory_write_sorts : Memory.write [(0, 1#8), (7, 2#8)] 3 9#8 = [(0, 1#8), (3, 9#8), (7, 2#8)] := by decide
theorem test_registry_conflict : registryOfCatalog [⟨5#8, 0#8, 1#8⟩, ⟨5#8, 0#8, 2#8⟩] = none := by decide
theorem test_registry_idempotent : registryOfCatalog [⟨5#8, 0#8, 1#8⟩, ⟨4#8, 0#8, 2#8⟩, ⟨5#8, 0#8, 1#8⟩] =
    some [⟨4#8, 0#8, 2#8⟩, ⟨5#8, 0#8, 1#8⟩] := by decide

/-- `feed 0, 0xFE` (R78). -/
theorem test_asm_feed : asmLineWords 0xFE#8 ['f', 'e', 'e', 'd', ' ', '0', ',', ' ', '0', 'x', 'F', 'E'] =
    some [0x100000FE#32] := by decide

/-- `rdcrc 2 ; x` (R76, R78). -/
theorem test_asm_comment : asmLineWords 0xFE#8 ['r', 'd', 'c', 'r', 'c', ' ', '2', ' ', ';', ' ', 'x'] =
    some [0x40020000#32] := by decide

theorem test_asm_refuses_256 : AsmLine.words 0xFE#8 (.feed 0 256) = none := by decide
theorem test_asm_feeds_copies : AsmLine.words 0xFE#8 (.feeds 0 [(0xFE, 1), (0, 2)]) =
    some [0x100000FE#32, 0x10000000#32, 0x10000000#32] := by decide
theorem test_asm_feedframe_refuses : AsmLine.words 0xFE#8 (.feedframe 0 2 0 1 1 185 [0x7B] 145) = none := by decide

/-! ### Witnesses: the hypotheses of the statements hold together somewhere -/

/-- V4 after byte 7 meets the invariant of a channel. -/
theorem v4Payload_inv : v4Payload.Inv State.reset.registry := by
  constructor <;> decide +kernel

/-- A channel in IDLE that has been used meets the invariant of a channel. -/
theorem usedIdle_inv : usedIdle.Inv State.reset.registry := by
  constructor <;> decide

/-- A block in the middle of a frame meets the invariant. -/
theorem busy_inv : State.Inv { on0 v4Payload with channels := [v4Payload, usedIdle] } := by
  refine ⟨by decide, fun ch h => ?_⟩
  simp only [List.mem_cons, List.not_mem_nil, or_false] at h
  rcases h with rfl | rfl
  · exact v4Payload_inv
  · exact usedIdle_inv

theorem witness_DecodeAndEncodeAgree : decode 0x6A#32 = .error .reservedField ∧ decode 0x10FF00FF#32 = .ok (.feed 255#8 255#8) :=
  ⟨rfl, rfl⟩

theorem witness_DecodeFollowsOpcodeTable :
    (⟨"FEED", 0x10000000#32, 0xFF00FF00#32⟩ : OpcodeRow) ∈ opcodeTable ∧
    0x10AB00CD#32 &&& 0xFF00FF00#32 = 0x10000000#32 ∧ 0x10AB01CD#32 &&& 0xFF00FF00#32 ≠ 0x10000000#32 := by decide

theorem witness_StepRunsTheDecodedCommand :
    (State.reset.presentFirst 0x100000FE#32).port = .command 0x100000FE#32 :: [] ∧
    decode 0x100000FE#32 = .ok (.feed 0#8 0xFE#8) := ⟨rfl, rfl⟩

/-- V13, at the first and last value of each clause. -/
theorem witness_CommandErrorsInPriority :
    answer 0x70000000#32 = some ⟨.cmdError, 1#8, 0#8, 0#32, none⟩ ∧
    answer 0xFF1001FE#32 = some ⟨.cmdError, 1#8, 0x10#8, 0#32, none⟩ ∧
    answer 0x00000001#32 = some ⟨.cmdError, 2#8, 0#8, 0#32, none⟩ ∧
    answer 0x10FF0100#32 = some ⟨.cmdError, 2#8, 0xFF#8, 0#32, none⟩ ∧
    answer 0x68000000#32 = some ⟨.cmdError, 2#8, 0#8, 0#32, none⟩ ∧
    answer 0x100200FE#32 = some ⟨.cmdError, 3#8, 2#8, 0#32, none⟩ ∧
    answer 0x60FF0000#32 = some ⟨.cmdError, 3#8, 0xFF#8, 0#32, none⟩ ∧
    answer 0x60010000#32 = some ⟨.ok, 0#8, 1#8, 0#32, none⟩ := by decide

/-- EveryCommandAnswersOnce and ResponseKindsAndCodes: each kind is answered by some step. -/
theorem witness_every_kind :
    (answer 0x00000000#32).map (fun r => r.kind) = some .ok ∧
    (respOf (step ((on0 v1High).presentFirst 0x1000007C#32))).map (fun r => r.kind) = some .frameReady ∧
    (respOf (step ((on0 v1High).presentFirst 0x100000FE#32))).map (fun r => r.kind) = some .frameRejected ∧
    (answer 0x10020000#32).map (fun r => r.kind) = some .cmdError := by decide

theorem witness_NothingPresentedHoldsState : State.reset.port = [] := rfl

theorem witness_NopAnswersOk :
    (State.reset.presentFirst 0x00000000#32).port = .command 0x00000000#32 :: [] ∧
    (0x00000000#32).extractLsb' 28 4 = 0#4 ∧ (0x08000000#32).extractLsb' 28 4 = 0#4 ∧
    (0x08000000#32).extractLsb' 0 28 ≠ 0#28 := by decide

/-- ChrstClearsTheFrame, the four reads and the frame of FEED: a named channel, at the last number that exists. -/
theorem witness_channel_exists :
    (on0 v4Payload).channels[(0#8).toNat]? = some v4Payload ∧
    (on0 v4Payload).channels[(1#8).toNat]? = some Channel.reset ∧ (on0 v4Payload).channels[(2#8).toNat]? = none := by decide

/-- ChrstInIdleChangesNothing and ReadsInIdle. -/
theorem witness_idle_channel :
    (on0 usedIdle).channels[(0#8).toNat]? = some usedIdle ∧ usedIdle.Inv (on0 usedIdle).registry ∧ usedIdle.phase = 0#4 :=
  ⟨rfl, usedIdle_inv, rfl⟩

theorem witness_SideEffectsAndIdempotency :
    (nextOf (exec (.rdcrc 0#8) (on0 v1High))).isSome = true ∧ (nextOf (exec (.chrst 0#8) (on0 v1High))).isSome = true ∧
    answer 0xF0000000#32 = some ⟨.cmdError, 1#8, 0#8, 0#32, none⟩ := by decide

theorem witness_ReadsBetweenFeedsChangeNothing :
    (nextOf (exec (.rdstat 0#8) (on0 v4Payload))).map (fun t => nextOf (exec (.feed 0#8 0#8) t)) =
      some (nextOf (exec (.feed 0#8 0#8) (on0 v4Payload))) := by decide

/-- FeedInIdle: both clauses. -/
theorem witness_FeedInIdle :
    (on0 usedIdle).channels[(0#8).toNat]? = some usedIdle ∧ usedIdle.phase = 0#4 ∧
    0xFE#8 = (on0 usedIdle).startMarker ∧ 0xFF#8 ≠ (on0 usedIdle).startMarker := by decide

/-- FeedHeaderBytes: each clause. -/
theorem witness_FeedHeaderBytes (p : BitVec 4) :
    (on0 { gotLength with phase := p }).channels[(0#8).toNat]? = some { gotLength with phase := p } := rfl

/-- FeedMessageIdLatches: a known id, an unknown id, `LEN = 0` and `LEN ≠ 0`. -/
theorem witness_FeedMessageIdLatches :
    v1MessageId.phase = 5#4 ∧ v2MessageId.phase = 5#4 ∧ v2MessageId.len = 0#8 ∧ v1MessageId.len ≠ 0#8 ∧
    registryLookup (on0 v1MessageId).registry 185#8 = some ⟨1#8, 145#8⟩ ∧
    registryLookup (on0 v1MessageId).registry 99#8 = none ∧ registryLookup (on0 v1MessageId).registry 0#8 ≠ none := by decide

/-- FeedPayloadByte: the last byte, one before it, and the highest index. -/
theorem witness_FeedPayloadByte :
    v1Payload.phase = 6#4 ∧ v1Payload.cnt.toNat + 1 = v1Payload.len.toNat ∧ v4Payload.phase = 6#4 ∧
    v4Payload.cnt.toNat + 1 ≠ v4Payload.len.toNat ∧
    (chanOf (exec (.feed 0#8 1#8) (on0 { v1Payload with len := 255#8, cnt := 254#8 })) 0).map (fun ch => ch.pb) =
      some [(254, 1#8)] := by decide

theorem witness_FeedChecksumLowByte :
    v1Low.phase = 7#4 ∧ chanOf (exec (.feed 0#8 0x95#8) (on0 v1Low)) 0 = some v1High := by decide

theorem witness_FeedAcceptsValidFrame :
    v1High.phase = 8#4 ∧ v1High.dfound = true ∧ v1High.lenok = true ∧ 0x7C#8 ++ v1High.cklo = v1High.crc := by decide

/-- FeedRejectsInvalidFrame: each of the three causes (60_exceptions.md R161). -/
theorem witness_FeedRejectsInvalidFrame :
    ¬ (v1High.dfound = true ∧ v1High.lenok = true ∧ 0x7D#8 ++ v1High.cklo = v1High.crc) ∧
    respOf (exec (.feed 0#8 0x7C#8) (on0 { v1High with dfound := false })) = some ⟨.frameRejected, 1#8, 0#8, 0#32, none⟩ ∧
    respOf (exec (.feed 0#8 0x7C#8) (on0 { v1High with lenok := false })) = some ⟨.frameRejected, 1#8, 0#8, 0#32, none⟩ := by
  decide

/-- UnusedPhasesFault: the first and the last unused value, and the last used one. -/
theorem witness_UnusedPhasesFault :
    faultOf (exec (.feed 0#8 0#8) (on0 { Channel.reset with phase := 9#4 })) = some .unusedPhase ∧
    faultOf (exec (.feed 0#8 0#8) (on0 { Channel.reset with phase := 15#4 })) = some .unusedPhase ∧
    faultOf (exec (.feed 0#8 0#8) (on0 v1High)) = none ∧
    (chanOf (exec .nop (on0 { Channel.reset with phase := 9#4 })) 0).map (fun ch => ch.phase) = some 9#4 := by decide

theorem witness_PayloadIndex255Faults :
    faultOf (exec (.feed 0#8 0#8) (on0 { v4Payload with cnt := 255#8 })) = some .payloadIndex := by decide

/-- FeedCompletes, FeedFrame and NoRescan: a FEED in the highest legal phase, and one in IN_PAYLOAD. -/
theorem witness_FeedCompletes :
    v1High.phase.toNat ≤ 8 ∧ v4Payload.phase.toNat ≤ 8 ∧ v4Payload.cnt ≠ 255#8 ∧ v4Payload.phase ≠ 0#4 ∧
    (nextOf (exec (.feed 0#8 0xFE#8) (on0 v4Payload))).isSome = true := by decide

/-- DropsCountRejections: a rejection, no rejection, and a reset. -/
theorem witness_DropsCountRejections :
    (chanOf (step ((on0 v1High).presentFirst 0x100000FE#32)) 0).map (fun ch => ch.drops) = some 1#32 ∧
    (chanOf (step ((on0 usedIdle).presentFirst 0x20000000#32)) 0).map (fun ch => ch.drops) = some 7#32 ∧
    (chanOf (step { on0 usedIdle with port := [.reset] }) 0).map (fun ch => ch.drops) = some 0#32 := by decide

/-- ParametersNeverChange: a step of each port event answers a next state. -/
theorem witness_ParametersNeverChange :
    (nextOf (step { State.reset with port := [.reset] })).isSome = true ∧
    (nextOf (step (State.reset.presentFirst 0x100000FE#32))).isSome = true := by decide

theorem witness_ResetSetsEveryField : ({ on0 v4Payload with port := [.reset] } : State).port = .reset :: [] := rfl

/-- ChannelIsolation: a command that names another channel, one that names none, and two states that agree on one channel. -/
theorem witness_ChannelIsolation :
    (nextOf (exec (.feed 1#8 0xFE#8) (on0 v4Payload))).isSome = true ∧ Instr.channel? (.feed 1#8 0xFE#8) = some 1#8 ∧
    (1#8).toNat ≠ 0 ∧ Instr.channel? .nop = none ∧ (on0 v4Payload).channels ≠ State.reset.channels ∧
    (on0 v4Payload).channels[(1#8).toNat]? = State.reset.channels[(1#8).toNat]? := by decide

/-- InterleavingIsUnobservable: two orders of the first words of program P3. -/
theorem witness_InterleavingIsUnobservable (c : Byte) :
    [0x100000FE#32, 0x100100FE#32].filter (fun w => decide (chField w = c)) =
      [0x100100FE#32, 0x100000FE#32].filter (fun w => decide (chField w = c)) := by
  have h0 : chField 0x100000FE#32 = 0#8 := rfl
  have h1 : chField 0x100100FE#32 = 1#8 := rfl
  by_cases hc : (0#8) = c
  · subst hc; rfl
  · simp [List.filter, h0, h1, hc]

/-- StaleBytesAreNeverObserved: channels that differ in a byte beyond `CNT`. -/
theorem witness_StaleBytesAreNeverObserved :
    SameButStale v4Payload { v4Payload with pb := [(0, 0xFE#8), (1, 5#8)] } := by
  refine ⟨rfl, fun i h => ?_⟩
  have h1 : i < 1 := by
    rcases h with ⟨-, h⟩ | ⟨h, -⟩
    · exact h
    · exact absurd h (by decide)
  obtain rfl : i = 0 := by omega
  rfl

/-- StepKeepsTheInvariant, InvariantStepsAreSafe and ReachableStatesMeetR37: a step from a state with the invariant. -/
theorem witness_invariant_step :
    State.Inv { on0 v4Payload with channels := [v4Payload, usedIdle] } ∧
    (nextOf (step ({ on0 v4Payload with channels := [v4Payload, usedIdle] } : State))).isSome = true :=
  ⟨busy_inv, rfl⟩

theorem witness_ReachableStatesMeetR37 :
    Params.testConfiguration.wf ∧ ReachableFrom Params.testConfiguration { State.reset with port := [.reset] } :=
  ⟨by decide, [.reset], 0, [], rfl⟩

/-- EmittedFramesAreWellFormed: V1 byte 9, in a state that meets the invariant. -/
theorem witness_EmittedFramesAreWellFormed :
    State.Inv ((on0 v1High).presentFirst 0x1000007C#32) ∧
    respOf (step ((on0 v1High).presentFirst 0x1000007C#32)) = some ⟨.frameReady, 0#8, 0#8, 0#32, some v1Frame⟩ := by
  refine ⟨⟨by decide, fun ch h => ?_⟩, by decide⟩
  replace h : ch ∈ [v1High, Channel.reset] := h
  simp only [List.mem_cons, List.not_mem_nil, or_false] at h
  rcases h with rfl | rfl <;> constructor <;> decide +kernel

/-- WireBytesAreWellFormed: V2, the shortest frame. -/
theorem witness_WireBytesAreWellFormed :
    ([] : List Byte).length = (0#8).toNat ∧ registryLookup State.reset.registry 0#8 = some ⟨0#8, 50#8⟩ := by decide

/-- ResynchronizationGuarantee: V1, and noise that holds no start marker. -/
theorem witness_ResynchronizationGuarantee :
    wellFormedFrame State.reset.startMarker State.reset.registry v1Bytes = true ∧ layoutFrame v1Bytes = some v1Frame ∧
    State.reset.channels[(0#8).toNat]? = some Channel.reset ∧ Channel.reset.phase = 0#4 ∧
    State.reset.startMarker ∉ [0x00#8, 0x55#8, 0xFF#8] := by decide +kernel

/-- IllFormedCandidateIsRejected: V6, an unknown id, and V7, a length mismatch with a matching checksum. -/
theorem witness_IllFormedCandidateIsRejected :
    wellFormedFrame 0xFE#8 State.reset.registry
      [0xFE#8, 0x01#8, 0x00#8, 0x01#8, 0x01#8, 0x63#8, 0x7B#8, 0xE0#8, 0x80#8] = false ∧
    wellFormedFrame 0xFE#8 State.reset.registry
      [0xFE#8, 0x02#8, 0x00#8, 0x01#8, 0x01#8, 0xB9#8, 0x7B#8, 0x00#8, 0x0D#8, 0xCC#8] = false ∧
    (layoutFrame [0xFE#8, 0x02#8, 0x00#8, 0x01#8, 0x01#8, 0xB9#8, 0x7B#8, 0x00#8, 0x0D#8, 0xCC#8]).isSome = true := by decide

/-- OneChangedByteIsRejected: V5, at index 6 of V1, and the first and last index that may change. -/
theorem witness_OneChangedByteIsRejected :
    v1Bytes[6]? ≠ some 0x7A#8 ∧ v1Bytes[2]? ≠ some 0x80#8 ∧ v1Bytes[8]? ≠ some 0x7D#8 ∧ v1Bytes.length = 9 := by decide

/-- RecoveryBound: GOT_LENGTH with the shortest frame behind it, and a return to IDLE of each kind. -/
theorem witness_RecoveryBound :
    gotLength.phase = 1#4 ∧ (List.replicate 6 (0x00#8 : Byte)).length = 6 + (0#8).toNat ∧
    (chanOf (step ((on0 v4Payload).presentFirst 0x20000000#32)) 0).map (fun ch => ch.phase) = some 0#4 ∧
    (chanOf (step { on0 v4Payload with port := [.reset] }) 0).map (fun ch => ch.phase) = some 0#4 ∧
    (chanOf (step ((on0 v1High).presentFirst 0x1000007C#32)) 0).map (fun ch => ch.phase) = some 0#4 := by decide

theorem witness_RegistryOfCatalogRefusesConflicts :
    registryOfCatalog [⟨7#8, 1#8, 1#8⟩, ⟨2#8, 0#8, 1#8⟩] = some [⟨2#8, 0#8, 1#8⟩, ⟨7#8, 1#8, 1#8⟩] := by decide

end Sys2Proof.Tests
end

section
/-! The invariant after reset (10_state.md R20, R37), and whole frames fed to a channel in IDLE (40_feed.md R101 to R113,
R119). -/

namespace Sys2Proof.Machine

/-! ### The invariant after reset -/

/-- A channel with its reset values meets the invariant whatever `DROPS` and the canonical buffer hold, as after
ClearFrame and after reset. -/
theorem Channel.inv_of_cleared (reg : Registry) (d : BitVec 32) {pb : Memory} (h : pb.wf) :
    Channel.Inv reg { Channel.reset with drops := d, pb := pb } where
  phase_legal := Nat.zero_le 8
  pb_wf := h
  len_untaken _ := rfl
  seq_untaken _ := rfl
  sys_untaken _ := rfl
  comp_untaken _ := rfl
  msgid_untaken _ := rfl
  latch_clear _ := ⟨rfl, rfl, rfl⟩
  latch_resolved h6 := absurd h6 (Nat.not_succ_le_zero 5)
  cnt_zero _ := rfl
  cnt_below h6 := absurd h6 (Nat.zero_ne_add_one 5)
  cklo_untaken _ := rfl
  crc_value := rfl

/-- The parameters of the reset state are the ones it was built with. -/
@[simp] theorem params_resetWith (p : Params) : (State.resetWith p).params = p := by
  simp [State.params, State.resetWith]

theorem resetWith_inv {p : Params} (h : p.wf) : (State.resetWith p).Inv where
  params_wf := by rwa [params_resetWith]
  channels_inv ch hch := by
    rw [List.eq_of_mem_replicate hch]
    exact Channel.inv_of_cleared _ _ Memory.nil_wf

/-- Settles O39: every channel is `Channel.reset`, and the parameters are in range. -/
theorem resetMeetsTheInvariant : Obligations.ResetMeetsTheInvariant :=
  ⟨resetWith_inv (by decide), fun _ => resetWith_inv⟩

/-! ### The bytes a frame's checksum covers -/

/-- The bytes of a frame that its checksum covers, in wire order (00_scope.md R10). -/
def Frame.covered (f : Frame) : List Byte :=
  [f.payloadLength, f.sequence, f.systemId, f.componentId, f.messageId] ++ f.payload

theorem Frame.covered_eq_append (f : Frame) :
    f.covered = [f.payloadLength, f.sequence, f.systemId, f.componentId] ++ f.messageId :: f.payload := rfl

theorem Frame.crc_eq_crcOver_covered (f : Frame) (extra : Byte) :
    f.crc extra = crcAcc (crcOver crcInit f.covered) extra := rfl

/-- A byte string laid out as a frame: the start marker, the covered bytes, and the checksum low byte first. -/
theorem layoutFrame_covered {bs : List Byte} {f : Frame} (h : layoutFrame bs = some f) :
    ∃ lo hi : Byte, f.checksum = hi ++ lo ∧ bs = f.startMarker :: (f.covered ++ [lo, hi]) := by
  obtain ⟨lo, hi, -, hck, hbs⟩ := layoutFrame_some h
  exact ⟨lo, hi, hck, hbs⟩

theorem layoutFrame_payload_length {bs : List Byte} {f : Frame} (h : layoutFrame bs = some f) :
    f.payload.length = f.payloadLength.toNat := by
  obtain ⟨-, -, hl, -⟩ := layoutFrame_some h
  exact hl

theorem layoutFrame_covered_length {bs : List Byte} {f : Frame} (h : layoutFrame bs = some f) :
    f.covered.length = 5 + f.payloadLength.toNat := by
  simp only [Frame.covered, List.length_append, List.length_cons, List.length_nil, layoutFrame_payload_length h]

/-- Equally long byte strings laid out as frames have equal length fields. -/
theorem layoutFrame_payloadLength_eq {bs bs' : List Byte} {f f' : Frame} (h : layoutFrame bs = some f)
    (h' : layoutFrame bs' = some f') (hl : bs'.length = bs.length) : f'.payloadLength = f.payloadLength := by
  obtain ⟨_, _, -, rfl⟩ := layoutFrame_covered h
  obtain ⟨_, _, -, rfl⟩ := layoutFrame_covered h'
  simp only [List.length_cons, List.length_append, List.length_nil, layoutFrame_covered_length h,
    layoutFrame_covered_length h'] at hl
  exact BitVec.eq_of_toNat_eq (by omega)

theorem wellFormedFrame_eq {m : Byte} {reg : Registry} {bs : List Byte} {f : Frame} (h : layoutFrame bs = some f) :
    wellFormedFrame m reg bs = f.wellFormed m reg := by
  simp only [wellFormedFrame, h]

/-! ### A whole frame, byte by byte -/

section
variable {m : Byte} {reg : Registry} {ch : Channel} {f : Frame}

/-- AbsorbExtra neither reads nor writes `PHASE`. -/
theorem absorbExtra_set_phase (ch : Channel) (p : BitVec 4) :
    { absorbExtra ch with phase := p } = absorbExtra { ch with phase := p } := by
  unfold absorbExtra; split <;> rfl

/-- AbsorbExtra neither reads nor writes `CNT` and `PHASE`. -/
theorem absorbExtra_set_cnt_phase (ch : Channel) (n : Byte) (p : BitVec 4) :
    { absorbExtra ch with cnt := n, phase := p } = absorbExtra { ch with cnt := n, phase := p } := by
  unfold absorbExtra; split <;> rfl

/-- The channel `ch` after the bytes LEN, SEQ, SYS_ID and COMP_ID of `f`. -/
def Channel.addressTaken (f : Frame) (ch : Channel) : Channel :=
  { ch with
    len := f.payloadLength, seq := f.sequence, sys := f.systemId, comp := f.componentId
    crc := crcOver ch.crc [f.payloadLength, f.sequence, f.systemId, f.componentId]
    phase := 5#4 }

/-- LEN to COMP_ID, from GOT_LENGTH (40_feed.md R103 to R106). -/
theorem feedAll_address (f : Frame) (h : ch.phase = 1#4) :
    feedAll m reg [f.payloadLength, f.sequence, f.systemId, f.componentId] ch =
      .ok (ch.addressTaken f, List.replicate 4 .incomplete) :=
  feedAll_cons (feedByte_length h) <| feedAll_cons (feedByte_sequence rfl) <|
    feedAll_cons (feedByte_systemId rfl) <| feedAll_cons (feedByte_componentId rfl) rfl

/-- MSG_ID of a frame without payload (R107). -/
theorem feedByte_messageId_empty {b : Byte} (hp : ch.phase = 5#4) (hl : ch.len = 0#8) :
    feedByte m reg b ch = .ok (absorbExtra { takeMessageId reg b ch with phase := 7#4 }, .incomplete) := by
  rw [feedByte_messageId hp, feedMessageId, if_pos hl]
  exact congrArg (fun c => Except.ok (c, _)) (absorbExtra_set_phase _ _)

/-- MSG_ID of a frame with payload (R107). -/
theorem feedByte_messageId_payload {b : Byte} (hp : ch.phase = 5#4) (hl : ch.len ≠ 0#8) :
    feedByte m reg b ch = .ok ({ takeMessageId reg b ch with cnt := 0#8, phase := 6#4 }, .incomplete) := by
  rw [feedByte_messageId hp, feedMessageId, if_neg hl]; rfl

/-- A payload byte that is not the last (R108, R109). -/
theorem feedByte_payload_more {b : Byte} (hp : ch.phase = 6#4) (hl : ch.cnt.toNat + 1 < ch.len.toNat) :
    feedByte m reg b ch = .ok ({ payloadStore b ch with cnt := ch.cnt + 1#8 }, .incomplete) := by
  have := ch.len.isLt
  rw [feedByte_payload hp, feedPayload, if_pos (by unfold pbSize; omega), payloadAdvance,
    if_neg (by exact Nat.ne_of_lt hl)]
  rfl

/-- The last payload byte (R108, R109). -/
theorem feedByte_payload_last {b : Byte} (hp : ch.phase = 6#4) (hl : ch.cnt.toNat + 1 = ch.len.toNat) :
    feedByte m reg b ch = .ok (absorbExtra { payloadStore b ch with cnt := 0#8, phase := 7#4 }, .incomplete) := by
  have := ch.len.isLt
  rw [feedByte_payload hp, feedPayload, if_pos (by unfold pbSize; omega), payloadAdvance,
    if_pos (by exact hl)]
  exact congrArg (fun c => Except.ok (c, _)) (absorbExtra_set_cnt_phase _ _ _)

/-- The rest of a payload, up to its last byte: it is stored after what the buffer holds, and absorbed. -/
theorem feedAll_payload {bs : List Byte} (hp : ch.phase = 6#4) (hne : bs ≠ [])
    (hl : ch.cnt.toNat + bs.length = ch.len.toNat) :
    ∃ pb : Memory, pb.take ch.len.toNat = ch.pb.take ch.cnt.toNat ++ bs ∧
      feedAll m reg bs ch =
        .ok (absorbExtra { ch with crc := crcOver ch.crc bs, pb := pb, cnt := 0#8, phase := 7#4 },
          List.replicate bs.length .incomplete) := by
  induction bs generalizing ch with
  | nil => exact absurd rfl hne
  | cons b rest ih =>
    rw [List.length_cons] at hl
    by_cases hr : rest = []
    · subst hr
      refine ⟨_, ?_, feedAll_cons (feedByte_payload_last hp hl) rfl⟩
      rw [← hl]
      exact Memory.take_write _ _ _
    · have hpos := List.length_pos_iff.mpr hr
      have hlen := ch.len.isLt
      have hcnt : (ch.cnt + 1#8).toNat = ch.cnt.toNat + 1 :=
        BitVec.toNat_add_of_lt (by simp only [BitVec.toNat_ofNat]; omega)
      obtain ⟨pb, htake, hfeed⟩ := ih (ch := { payloadStore b ch with cnt := ch.cnt + 1#8 }) hp hr
        (by simp only [hcnt, payloadStore_len]; omega)
      refine ⟨pb, ?_, feedAll_cons (feedByte_payload_more hp (by omega)) hfeed⟩
      simpa [hcnt, Memory.take_write] using htake

/-- A channel that waits for the checksum of `f`: it holds the fields of `f`, what the registry says of them, and, for a
registered id, the checksum of `f`. -/
structure Channel.AwaitsChecksum (reg : Registry) (f : Frame) (ch : Channel) : Prop where
  phase_eq : ch.phase = 7#4
  len_eq : ch.len = f.payloadLength
  seq_eq : ch.seq = f.sequence
  sys_eq : ch.sys = f.systemId
  comp_eq : ch.comp = f.componentId
  msgid_eq : ch.msgid = f.messageId
  latch_eq : (ch.dfound, ch.xtra, ch.lenok) = latchOf (registryLookup reg f.messageId) f.payloadLength
  payload_eq : ch.pb.take f.payloadLength.toNat = f.payload
  crc_eq : ch.dfound = true → ch.crc = f.crc ch.xtra

/-- The channel `ch` after the header and the payload of `f`, AbsorbExtra (R110) done, with `pb` and `n` in `PB` and `CNT`. -/
def Channel.bodyTaken (reg : Registry) (f : Frame) (pb : Memory) (n : Byte) (ch : Channel) : Channel :=
  absorbExtra
    { takeMessageId reg f.messageId (ch.addressTaken f) with
      crc := crcOver ch.crc f.covered, pb := pb, cnt := n, phase := 7#4 }

theorem bodyTaken_awaitsChecksum (hc : ch.crc = crcInit) {pb : Memory} {n : Byte}
    (hpb : pb.take f.payloadLength.toNat = f.payload) : (ch.bodyTaken reg f pb n).AwaitsChecksum reg f where
  phase_eq := absorbExtra_phase _
  len_eq := absorbExtra_len _
  seq_eq := absorbExtra_seq _
  sys_eq := absorbExtra_sys _
  comp_eq := absorbExtra_comp _
  msgid_eq := absorbExtra_msgid _
  latch_eq := by rw [Channel.bodyTaken, absorbExtra_dfound, absorbExtra_xtra, absorbExtra_lenok]; rfl
  payload_eq := by rw [Channel.bodyTaken, absorbExtra_pb]; exact hpb
  crc_eq hd := by
    rw [Channel.bodyTaken, absorbExtra_dfound] at hd
    rw [Channel.bodyTaken, absorbExtra_crc, if_pos hd, absorbExtra_xtra, Frame.crc_eq_crcOver_covered, hc]

/-- All the bytes a checksum covers, from GOT_LENGTH: the channel takes them without an outcome and waits for it. -/
theorem feedAll_covered (hp : ch.phase = 1#4) (hc : ch.crc = crcInit)
    (hl : f.payload.length = f.payloadLength.toNat) :
    ∃ ch' : Channel, ch'.AwaitsChecksum reg f ∧ ch'.drops = ch.drops ∧
      feedAll m reg f.covered ch = .ok (ch', List.replicate (5 + f.payloadLength.toNat) .incomplete) := by
  have haddr := feedAll_address (m := m) (reg := reg) f hp
  have hos : List.replicate (5 + f.payloadLength.toNat) ParseOutcome.incomplete =
      List.replicate 4 .incomplete ++ .incomplete :: List.replicate f.payload.length .incomplete := by
    rw [← hl, List.replicate_add]; rfl
  rw [hos, Frame.covered_eq_append]
  by_cases h0 : f.payloadLength = 0#8
  · have hnil : f.payload = [] := List.eq_nil_of_length_eq_zero (by rw [hl, h0]; rfl)
    refine ⟨ch.bodyTaken reg f ch.pb ch.cnt, bodyTaken_awaitsChecksum hc ?_, absorbExtra_drops _, ?_⟩
    · rw [h0, hnil]; rfl
    · rw [Channel.bodyTaken, Frame.covered, hnil]
      exact feedAll_append haddr (feedAll_cons (feedByte_messageId_empty rfl h0) rfl)
  · have hne : f.payload ≠ [] := fun e => h0 (BitVec.eq_of_toNat_eq (by rw [← hl, e]; rfl))
    obtain ⟨pb, htake, hfeed⟩ := feedAll_payload (m := m) (reg := reg)
      (ch := { takeMessageId reg f.messageId (ch.addressTaken f) with cnt := 0#8, phase := 6#4 }) rfl hne
      ((Nat.zero_add _).trans hl)
    exact ⟨ch.bodyTaken reg f pb 0#8, bodyTaken_awaitsChecksum hc htake, absorbExtra_drops _,
      feedAll_append haddr (feedAll_cons (feedByte_messageId_payload rfl h0) hfeed)⟩

/-- The validity test of a framed channel is well-formedness of the frame it framed (R112, 30_encoding.md R61). -/
theorem validFrame_eq_wellFormed (h : ch.AwaitsChecksum reg f) (hm : f.startMarker = m) {lo hi : Byte}
    (hck : f.checksum = hi ++ lo) : validFrame { ch with cklo := lo, phase := 8#4 } hi = f.wellFormed m reg := by
  rw [Bool.eq_iff_iff, validFrame_iff, Frame.wellFormed_iff]
  have hlatch := h.latch_eq
  have hcrc := h.crc_eq
  cases hr : registryLookup reg f.messageId with
  | none =>
    simp only [hr, latchOf, Prod.mk.injEq] at hlatch
    simp [hlatch.1]
  | some d =>
    simp only [hr, latchOf, Prod.mk.injEq] at hlatch
    obtain ⟨hfound, hx, hok⟩ := hlatch
    simp [hm, hfound, hok, hcrc hfound, hx, hck]

/-- The frame that a framed channel emits (R112). -/
theorem frameOf_eq (h : ch.AwaitsChecksum reg f) (hm : f.startMarker = m) {lo hi : Byte}
    (hck : f.checksum = hi ++ lo) : frameOf m hi { ch with cklo := lo, phase := 8#4 } = f := by
  obtain ⟨-, hlen, hseq, hsys, hcomp, hmsg, -, hpay, -⟩ := h
  simp only [frameOf, receivedChecksum, hlen, hseq, hsys, hcomp, hmsg, hpay, ← hck, ← hm]

/-- The outcome of the last byte of the frame `f` (R112, R113). -/
def frameOutcome (m : Byte) (reg : Registry) (f : Frame) : ParseOutcome :=
  if f.wellFormed m reg then .frameReady f else .frameRejected

/-- `DROPS` after the frame `f` (R112, R113). -/
def dropsAfter (m : Byte) (reg : Registry) (f : Frame) (drops : BitVec 32) : BitVec 32 :=
  if f.wellFormed m reg then drops else satInc drops

/-- The two checksum bytes (R111 to R113). -/
theorem feedAll_checksum (h : ch.AwaitsChecksum reg f) (hm : f.startMarker = m) {lo hi : Byte}
    (hck : f.checksum = hi ++ lo) :
    feedAll m reg [lo, hi] ch =
      .ok (clearFrame { ch with drops := dropsAfter m reg f ch.drops }, [.incomplete, frameOutcome m reg f]) := by
  refine feedAll_cons (feedByte_checksumLow h.phase_eq) <| feedAll_cons ((feedByte_checksumHigh rfl).trans ?_) rfl
  have hv := validFrame_eq_wellFormed h hm hck
  have hf := frameOf_eq h hm hck
  unfold feedChecksumHigh frameOutcome dropsAfter
  simp only [Phase.code, hv, hf]
  split <;> rfl

/-- A channel in IDLE that is fed any bytes laid out as a frame behind the start marker takes them all, answers at the
last of them, and is cleared: the frame when it is well formed, else a rejection, which is counted (R101 to R113). -/
theorem feedAll_frame {bs : List Byte} (hp : ch.phase = 0#4) (hl : layoutFrame bs = some f) (hm : f.startMarker = m) :
    ∃ pb : Memory, feedAll m reg bs ch =
      .ok ({ Channel.reset with drops := dropsAfter m reg f ch.drops, pb := pb },
        List.replicate (7 + f.payloadLength.toNat) .incomplete ++ [frameOutcome m reg f]) := by
  obtain ⟨lo, hi, hck, rfl⟩ := layoutFrame_covered hl
  have hstart : feedByte m reg f.startMarker ch = .ok ({ ch with crc := crcInit, phase := 1#4 }, .incomplete) := by
    rw [feedByte_idle hp, feedIdle, if_pos hm]; rfl
  obtain ⟨ch', hwait, hdrops, hcov⟩ := feedAll_covered (m := m) (reg := reg) (f := f)
    (ch := { ch with crc := crcInit, phase := 1#4 }) rfl rfl (layoutFrame_payload_length hl)
  refine ⟨ch'.pb, (feedAll_cons hstart (feedAll_append hcov (feedAll_checksum hwait hm hck))).trans ?_⟩
  have hos : ParseOutcome.incomplete ::
        (List.replicate (5 + f.payloadLength.toNat) .incomplete ++ [.incomplete, frameOutcome m reg f]) =
      List.replicate (7 + f.payloadLength.toNat) .incomplete ++ [frameOutcome m reg f] := by
    rw [show 7 + f.payloadLength.toNat = 5 + f.payloadLength.toNat + 1 + 1 by omega, List.replicate_succ,
      List.replicate_succ']
    simp
  rw [hos, hdrops]; rfl

end

/-- What a host sees of bytes laid out as a frame behind the start marker, fed to a channel in IDLE. -/
theorem observeFeeds_frame {s : State} {c : Byte} {ch : Channel} {bs : List Byte} {f : Frame}
    (hc : s.channels[c.toNat]? = some ch) (hp : ch.phase = 0#4) (hl : layoutFrame bs = some f)
    (hm : f.startMarker = s.startMarker) :
    ∃ (t : State) (ch' : Channel),
      observeFeeds c bs s = some
        (List.replicate (7 + f.payloadLength.toNat) (Response.done c) ++
          [Response.ofOutcome c (frameOutcome s.startMarker s.registry f)], t) ∧
      t.channels = s.channels.set c.toNat ch' ∧ ch'.phase = 0#4 ∧
      ch'.drops = dropsAfter s.startMarker s.registry f ch.drops := by
  obtain ⟨pb, hfeed⟩ := feedAll_frame (reg := s.registry) hp hl hm
  obtain ⟨t, hobs, hch, -⟩ := observeFeeds_eq hc hfeed
  refine ⟨t, _, ?_, hch, rfl, rfl⟩
  rw [hobs, List.map_append, List.map_replicate]
  rfl

/-! ### One changed byte -/

/-- Over byte strings that differ in one byte the checksums differ (00_scope.md R9). -/
theorem crcOver_set_ne (crc : Crc) {bs : List Byte} {i : Nat} {b : Byte} (hi : i < bs.length) (hb : bs[i]? ≠ some b) :
    crcOver crc (bs.set i b) ≠ crcOver crc bs := by
  induction bs generalizing crc i with
  | nil => exact absurd hi (Nat.not_lt_zero i)
  | cons a rest ih =>
    cases i with
    | zero => exact fun h => hb (congrArg some (crcAcc_injective_byte (crcOver_injective h)).symm)
    | succ j => exact ih _ (Nat.lt_of_succ_lt_succ hi) hb

/-- Any six bytes, with two bytes more behind them than the second says, are laid out as a frame. -/
theorem layoutFrame_of_length (st len seq sys comp mid : Byte) {rest : List Byte} (h : rest.length = len.toNat + 2) :
    ∃ f : Frame, layoutFrame (st :: len :: seq :: sys :: comp :: mid :: rest) = some f ∧ f.startMarker = st ∧
      f.messageId = mid :=
  ⟨_, if_pos h, rfl, rfl⟩

/-- A frame's bytes with one changed, other than START, LEN and MSG_ID, are laid out as a frame with the same START and
MSG_ID. -/
theorem layoutFrame_set {bs : List Byte} {f : Frame} (h : layoutFrame bs = some f) {i : Nat} (h2 : 2 ≤ i) (h5 : i ≠ 5)
    (b : Byte) :
    ∃ f' : Frame, layoutFrame (bs.set i b) = some f' ∧ f'.startMarker = f.startMarker ∧ f'.messageId = f.messageId := by
  obtain ⟨lo, hi, hl, -, rfl⟩ := layoutFrame_some h
  have hrest : (f.payload ++ [lo, hi]).length = f.payloadLength.toNat + 2 := by rw [List.length_append, hl]; rfl
  match i, h2, h5 with
  | 2, _, _ => exact layoutFrame_of_length _ _ _ _ _ _ hrest
  | 3, _, _ => exact layoutFrame_of_length _ _ _ _ _ _ hrest
  | 4, _, _ => exact layoutFrame_of_length _ _ _ _ _ _ hrest
  | j + 6, _, _ => exact layoutFrame_of_length _ _ _ _ _ _ (List.length_set.trans hrest)

/-- The two bytes of a checksum, low byte first, are those of no other. -/
theorem checksum_bytes_inj {lo hi lo' hi' : Byte} (h : hi' ++ lo' = hi ++ lo) : lo' = lo ∧ hi' = hi := by
  have hlo := congrArg (BitVec.extractLsb' 0 8) h
  have hhi := congrArg (BitVec.extractLsb' 8 8) h
  rw [BitVec.extractLsb'_append_eq_right, BitVec.extractLsb'_append_eq_right] at hlo
  rw [BitVec.extractLsb'_append_eq_left, BitVec.extractLsb'_append_eq_left] at hhi
  exact ⟨hlo, hhi⟩

/-- START, the covered bytes and the checksum determine a frame's bytes. -/
theorem layoutFrame_bytes_eq {bs bs' : List Byte} {f f' : Frame} (h : layoutFrame bs = some f)
    (h' : layoutFrame bs' = some f') (hst : f'.startMarker = f.startMarker) (hcov : f'.covered = f.covered)
    (hck : f'.checksum = f.checksum) : bs' = bs := by
  obtain ⟨lo, hi, hb, rfl⟩ := layoutFrame_covered h
  obtain ⟨lo', hi', hb', rfl⟩ := layoutFrame_covered h'
  obtain ⟨rfl, rfl⟩ := checksum_bytes_inj (hb'.symm.trans (hck.trans hb))
  rw [hst, hcov]

/-- One byte behind START changed: either a covered byte changed and the checksum did not, or the covered bytes are as they
were. -/
theorem layoutFrame_set_cases {bs : List Byte} {f f' : Frame} {i : Nat} {b : Byte} (h : layoutFrame bs = some f)
    (h' : layoutFrame (bs.set (i + 1) b) = some f') (hb : bs[i + 1]? ≠ some b) :
    (i < f.covered.length ∧ f.covered[i]? ≠ some b ∧ f'.covered = f.covered.set i b ∧ f'.checksum = f.checksum) ∨
      f'.covered = f.covered := by
  have hlen : f'.covered.length = f.covered.length := by
    rw [layoutFrame_covered_length h, layoutFrame_covered_length h',
      layoutFrame_payloadLength_eq h h' List.length_set]
  obtain ⟨lo, hi, hck, rfl⟩ := layoutFrame_covered h
  obtain ⟨lo', hi', hck', hbs⟩ := layoutFrame_covered h'
  rw [List.set_cons_succ, List.set_append] at hbs
  have htail := (List.cons.inj hbs).2
  split at htail
  · rename_i hlt
    obtain ⟨hcov, hpair⟩ := List.append_inj htail (List.length_set.trans hlen.symm)
    obtain ⟨rfl, hrest⟩ := List.cons.inj hpair
    obtain rfl := List.singleton_inj.mp hrest
    rw [List.getElem?_cons_succ, List.getElem?_append_left hlt] at hb
    exact .inl ⟨hlt, hb, hcov.symm, hck'.trans hck.symm⟩
  · exact .inr (List.append_inj htail hlen.symm).1.symm

/-- The idea of R119: of two byte strings that differ in one byte behind START, at most one carries its own checksum. A
changed covered byte changes the checksum that is computed and not the one that is received, and a changed checksum byte
the other way round. -/
theorem checksum_ne_crc_of_set {bs : List Byte} {f f' : Frame} {i : Nat} {b x : Byte} (h : layoutFrame bs = some f)
    (h' : layoutFrame (bs.set (i + 1) b) = some f') (hst : f'.startMarker = f.startMarker) (hi : i + 1 < bs.length)
    (hb : bs[i + 1]? ≠ some b) (hx : f.checksum = f.crc x) : f'.checksum ≠ f'.crc x := by
  intro hx'
  rw [Frame.crc_eq_crcOver_covered] at hx hx'
  rcases layoutFrame_set_cases h h' hb with ⟨hlt, hne, hcov, hck⟩ | hcov
  · have hcrc : crcAcc (crcOver crcInit (f.covered.set i b)) x = crcAcc (crcOver crcInit f.covered) x := by
      rw [← hcov, ← hx', hck, hx]
    exact crcOver_set_ne crcInit hlt hne (crcAcc_injective_crc hcrc)
  · rw [hcov, ← hx] at hx'
    have hsame := layoutFrame_bytes_eq h h' hst hcov hx'
    exact hb (by rw [← hsame, List.getElem?_set_self hi])

/-- Settles O47: the changed bytes are still laid out as a frame with the same START and MSG_ID, which is not well formed
because its checksum differs, so the channel rejects it. -/
theorem oneChangedByteIsRejected : Obligations.OneChangedByteIsRejected := by
  unfold Obligations.OneChangedByteIsRejected
  intro s c ch bs f i b hc hp hw hl h2 h5 hi hb
  obtain ⟨f', hl', hst, hid⟩ := layoutFrame_set hl h2 h5 b
  rw [wellFormedFrame_eq hl, Frame.wellFormed_iff] at hw
  obtain ⟨hm, d, hd, -, hck⟩ := hw
  obtain ⟨j, rfl⟩ : ∃ j, i = j + 1 := ⟨i - 1, by omega⟩
  have hbad : f'.wellFormed s.startMarker s.registry = false := by
    rw [← Bool.not_eq_true, Frame.wellFormed_iff]
    rintro ⟨-, d', hd', -, hck'⟩
    obtain rfl : d = d' := Option.some.inj (hd.symm.trans (hid ▸ hd'))
    exact checksum_ne_crc_of_set hl hl' hst hi hb hck hck'
  obtain ⟨t, ch', hobs, hch, hidle, hdrops⟩ := observeFeeds_frame hc hp hl' (hst.trans hm)
  rw [layoutFrame_payloadLength_eq hl hl' List.length_set, frameOutcome, hbad] at hobs
  rw [dropsAfter, hbad] at hdrops
  exact ⟨t, ch', hobs, hch, hidle, (congrArg BitVec.toNat hdrops).trans (satInc_toNat _)⟩

end Sys2Proof.Machine
end

section
/-! What a command does to the one channel it names (10_state.md R32), and what follows from it: FEED's frame, isolation of
the channels, and the count of rejections (R29). -/

namespace Sys2Proof.Machine

/-! ### A command's effect on its channel -/

/-- What a command does to a channel it names: the channel after it and its response, or the fault. -/
def channelEffect (m : Byte) (reg : Registry) (i : Instr) (ch : Channel) : Except Fault (Channel × Response) :=
  match i with
  | .nop => .ok (ch, Response.done 0#8)
  | .feed c b =>
    match feedByte m reg b ch with
    | .ok (ch', o) => .ok (ch', Response.ofOutcome c o)
    | .error e => .error e
  | .chrst c => .ok (clearFrame ch, Response.done c)
  | .rdstat c => .ok (ch, Response.okData c (statWord ch))
  | .rdcrc c => .ok (ch, Response.okData c (crcWord ch))
  | .rddrop c => .ok (ch, Response.okData c (dropWord ch))
  | .rdhdr c => .ok (ch, Response.okData c (hdrWord ch))

/-- What a command on channel `c` leaves of the block: the effect's channel stored back and its response emitted, or the
fault. -/
def leaveEffect (c : Byte) (s : State) (r : Except Fault (Channel × Response)) : Host.Outcome State Fault Refusal :=
  match r with
  | .ok (ch', r) => .next ((s.setChannel c ch').emit r)
  | .error e => .fault e

section
variable {m : Byte} {reg : Registry} {i : Instr} {s t : State} {c b : Byte} {ch ch' : Channel} {r : Response}

theorem channelEffect_feed_ok {o : ParseOutcome} (h : feedByte m reg b ch = .ok (ch', o)) :
    channelEffect m reg (.feed c b) ch = .ok (ch', Response.ofOutcome c o) := by
  simp only [channelEffect, h]

theorem channelEffect_feed_error {e : Fault} (h : feedByte m reg b ch = .error e) :
    channelEffect m reg (.feed c b) ch = .error e := by
  simp only [channelEffect, h]

theorem channelEffect_feed (h : channelEffect m reg (.feed c b) ch = .ok (ch', r)) :
    ∃ o, feedByte m reg b ch = .ok (ch', o) ∧ r = Response.ofOutcome c o := by
  cases hf : feedByte m reg b ch with
  | ok p =>
    obtain ⟨rfl, rfl⟩ := Prod.mk.inj (Except.ok.inj ((channelEffect_feed_ok hf).symm.trans h))
    exact ⟨p.2, rfl, rfl⟩
  | error e => cases (channelEffect_feed_error hf).symm.trans h

/-- A command that names no channel is NOP. -/
theorem exec_unnamed (hi : i.channel? = none) : exec i s = .next (s.emit (Response.done 0#8)) := by
  cases i with
  | nop => rfl
  | _ => cases hi

/-- A command on an existing channel is its effect on that channel. -/
theorem exec_eq_leaveEffect (hi : i.channel? = some c) (h : s.channel? c = some ch) :
    exec i s = leaveEffect c s (channelEffect s.startMarker s.registry i ch) := by
  have hself : ∀ r, s.emit r = (s.setChannel c ch).emit r := fun r => by rw [setChannel_self h]
  cases i <;> simp only [Instr.channel?, Option.some.injEq, reduceCtorEq] at hi <;> subst hi
  case feed c b =>
    rw [exec_feed h]
    cases hf : feedByte s.startMarker s.registry b ch with
    | ok p => rw [channelEffect_feed_ok hf]; rfl
    | error e => rw [channelEffect_feed_error hf]; rfl
  case chrst c => exact exec_chrst h
  all_goals exact (exec_read rfl h rfl).trans (congrArg _ (hself _))

theorem exec_effect_ok (hi : i.channel? = some c) (h : s.channel? c = some ch)
    (he : channelEffect s.startMarker s.registry i ch = .ok (ch', r)) :
    exec i s = .next ((s.setChannel c ch').emit r) :=
  (exec_eq_leaveEffect hi h).trans (congrArg (leaveEffect c s) he)

theorem exec_effect_error {e : Fault} (hi : i.channel? = some c) (h : s.channel? c = some ch)
    (he : channelEffect s.startMarker s.registry i ch = .error e) : exec i s = .fault e :=
  (exec_eq_leaveEffect hi h).trans (congrArg (leaveEffect c s) he)

/-- Everything a command's effect can be: the channel kept by NOP and the reads, cleared by CHRST, or fed. -/
theorem channelEffect_ok (h : channelEffect m reg i ch = .ok (ch', r)) :
    (∃ c d, ch' = ch ∧ r = Response.okData c d ∧ i.channel?.getD 0#8 = c) ∨
    (∃ c, i = .chrst c ∧ ch' = clearFrame ch ∧ r = Response.done c) ∨
    (∃ c b o, i = .feed c b ∧ feedByte m reg b ch = .ok (ch', o) ∧ r = Response.ofOutcome c o) := by
  cases i
  case feed c b =>
    obtain ⟨o, hf, hr⟩ := channelEffect_feed h
    exact .inr (.inr ⟨c, b, o, rfl, hf, hr⟩)
  case chrst c =>
    obtain ⟨rfl, rfl⟩ := Prod.mk.inj (Except.ok.inj h)
    exact .inr (.inl ⟨c, rfl, rfl, rfl⟩)
  all_goals
    obtain ⟨rfl, rfl⟩ := Prod.mk.inj (Except.ok.inj h)
    exact .inl ⟨_, _, rfl, rfl, rfl⟩

theorem ofOutcome_rch (c : Byte) (o : ParseOutcome) : (Response.ofOutcome c o).rch = c := by
  cases o <;> rfl

/-- The response of a command names the channel the command names, and 0 for NOP (30_encoding.md R69). -/
theorem channelEffect_rch (h : channelEffect m reg i ch = .ok (ch', r)) : r.rch = i.channel?.getD 0#8 := by
  rcases channelEffect_ok h with ⟨c, d, -, rfl, hi⟩ | ⟨c, rfl, -, rfl⟩ | ⟨c, b, o, rfl, -, rfl⟩
  · exact hi.symm
  · rfl
  · exact ofOutcome_rch c o

/-- A byte taken counts in `DROPS` exactly when its outcome is a rejection (10_state.md R29). -/
theorem feedByte_drops {o : ParseOutcome} (h : feedByte m reg b ch = .ok (ch', o)) :
    (o = .frameRejected ∧ ch'.drops = satInc ch.drops) ∨ (o ≠ .frameRejected ∧ ch'.drops = ch.drops) := by
  rcases feedByte_ok h with ⟨-, -, rfl, rfl⟩ | ⟨-, -, rfl, rfl⟩ | ⟨-, rfl, rfl⟩ | ⟨-, rfl, rfl⟩ | ⟨-, rfl, rfl⟩ |
      ⟨-, rfl, rfl⟩ | ⟨-, -, rfl, rfl⟩ | ⟨-, -, rfl, rfl⟩ | ⟨-, -, -, rfl, rfl⟩ | ⟨-, -, -, rfl, rfl⟩ | ⟨-, rfl, rfl⟩ |
      ⟨-, -, rfl, rfl⟩ | ⟨-, -, rfl, rfl⟩ <;> simp

/-- A response of FEED is FRAME_REJECTED exactly when its outcome is. -/
theorem ofOutcome_kind_rejected {o : ParseOutcome} :
    (Response.ofOutcome c o).kind = .frameRejected ↔ o = .frameRejected := by
  cases o <;> simp [Response.ofOutcome, Response.done, Response.okData, Response.ready, Response.rejected]

/-- A command counts in `DROPS` exactly when it answers FRAME_REJECTED. -/
theorem channelEffect_drops (h : channelEffect m reg i ch = .ok (ch', r)) :
    (r.kind = .frameRejected ∧ ch'.drops = satInc ch.drops) ∨ (r.kind ≠ .frameRejected ∧ ch'.drops = ch.drops) := by
  rcases channelEffect_ok h with ⟨c, d, rfl, rfl, -⟩ | ⟨c, -, rfl, rfl⟩ | ⟨c, b, o, -, hf, rfl⟩
  · exact .inr ⟨Kind.noConfusion, rfl⟩
  · exact .inr ⟨Kind.noConfusion, rfl⟩
  · simpa only [ne_eq, ofOutcome_kind_rejected] using feedByte_drops hf

/-- The payload buffer `q` after the byte `b` is taken in the state of `ch`: IN_PAYLOAD stores it at index `CNT`
(40_feed.md R108), and no other phase writes. -/
def bufferAfter (b : Byte) (ch : Channel) (q : Memory) : Memory :=
  if ch.phase = 6#4 then q.write ch.cnt.toNat b else q

theorem bufferAfter_payload (hp : ch.phase = 6#4) (q : Memory) :
    bufferAfter b ch q = q.write ch.cnt.toNat b := if_pos hp

theorem bufferAfter_other (hp : ch.phase ≠ 6#4) (q : Memory) : bufferAfter b ch q = q := if_neg hp

theorem bufferAfter_read_other {a : Nat} (ha : ¬ (ch.phase = 6#4 ∧ a = ch.cnt.toNat)) (q : Memory) :
    (bufferAfter b ch q).read a = q.read a := by
  by_cases hp : ch.phase = 6#4
  · rw [bufferAfter_payload hp, Memory.read_write, if_neg fun e => ha ⟨hp, e⟩]
  · rw [bufferAfter_other hp]

theorem feedByte_pb {o : ParseOutcome} (h : feedByte m reg b ch = .ok (ch', o)) :
    ch'.pb = bufferAfter b ch ch.pb := by
  rcases feedByte_ok h with ⟨hp, -, -, rfl⟩ | ⟨hp, -, -, rfl⟩ | ⟨hp, -, rfl⟩ | ⟨hp, -, rfl⟩ | ⟨hp, -, rfl⟩ |
      ⟨hp, -, rfl⟩ | ⟨hp, -, -, rfl⟩ | ⟨hp, -, -, rfl⟩ | ⟨hp, -, -, -, rfl⟩ | ⟨hp, -, -, -, rfl⟩ | ⟨hp, -, rfl⟩ |
      ⟨hp, -, -, rfl⟩ | ⟨hp, -, -, rfl⟩ <;> simp [bufferAfter, hp]

/-- A command that answers a next state on an existing channel, and its effect. -/
theorem exec_next_effect (hi : i.channel? = some c) (hc : s.channel? c = some ch) (h : exec i s = .next t) :
    ∃ ch' r, channelEffect s.startMarker s.registry i ch = .ok (ch', r) ∧ t = (s.setChannel c ch').emit r := by
  rw [exec_eq_leaveEffect hi hc] at h
  cases he : channelEffect s.startMarker s.registry i ch with
  | ok p => rw [he] at h; exact ⟨p.1, p.2, rfl, (Host.Outcome.next.inj h).symm⟩
  | error e => rw [he] at h; cases h

/-- A command that answers a next state leaves the channels it does not name, the parameters and the port. -/
theorem exec_frame (h : exec i s = .next t) :
    t.params = s.params ∧ t.port = s.port ∧
      ∀ k, (∀ c, i.channel? = some c → c.toNat ≠ k) → t.channels[k]? = s.channels[k]? := by
  obtain ⟨r, rfl | ⟨c, ch, ch', hi, -, rfl⟩⟩ := exec_next h
  · exact ⟨rfl, rfl, fun _ _ => rfl⟩
  · exact ⟨params_setChannel s c ch', rfl, fun k hk => channels_setChannel_other s c ch' (hk c hi)⟩

end

/-! ### CHRST and FEED -/

/-- Settles O11: ClearFrame writes the listed values and keeps the rest. -/
theorem chrstClearsTheFrame : Obligations.ChrstClearsTheFrame :=
  fun _ _ _ h => exec_chrst h

/-- Settles O30: FEED stores back one channel, and `feedByte` says what that channel keeps. -/
theorem feedFrame : Obligations.FeedFrame := by
  unfold Obligations.FeedFrame
  intro s t c b ch hc h
  obtain ⟨hparams, hport, hother⟩ := exec_frame h
  obtain ⟨ch', r, he, rfl⟩ := exec_next_effect rfl hc h
  refine ⟨hparams, hport, fun k hk => hother k fun d hd => ?_, ch', channel?_setChannel_same ch' hc, fun hr => ?_,
    fun a ha => ?_⟩
  · obtain rfl : c = d := Option.some.inj hd
    exact hk.symm
  · rcases channelEffect_drops he with ⟨hk, -⟩ | ⟨-, hd⟩
    · exact absurd hk (hr r rfl)
    · exact hd
  · obtain ⟨o, hf, -⟩ := channelEffect_feed he
    rw [feedByte_pb hf, bufferAfter_read_other ha]

/-! ### Isolation -/

/-- Settles O35: a command on a channel is its effect on that channel, which reads the channel and the parameters alone. -/
theorem channelIsolation : Obligations.ChannelIsolation := by
  unfold Obligations.ChannelIsolation
  refine ⟨fun s t i k h hk => ?_, fun s s' i c hi hm hr hc => ?_⟩
  · obtain ⟨-, -, hother⟩ := exec_frame h
    exact hother k hk
  cases h : s.channel? c with
  | none =>
    rw [exec_badChannel hi h, exec_badChannel hi (hc.trans h)]
    refine ⟨fun t ht => ⟨_, rfl, ?_⟩, nofun⟩
    obtain rfl := Host.Outcome.next.inj ht
    exact ⟨rfl, hc⟩
  | some ch =>
    have h' : s'.channel? c = some ch := hc.trans h
    rw [exec_eq_leaveEffect hi h, exec_eq_leaveEffect hi h', hm, hr]
    cases channelEffect s.startMarker s.registry i ch with
    | ok p =>
      refine ⟨fun t ht => ⟨_, rfl, ?_⟩, nofun⟩
      obtain rfl := Host.Outcome.next.inj ht
      exact ⟨rfl, (channel?_setChannel_same p.1 h').trans (channel?_setChannel_same p.1 h).symm⟩
    | error e => exact ⟨nofun, fun _ he => he⟩

/-! ### Words, steps and the count of rejections -/

/-- The channel a decoded command names is the `CH` field of its word, which is 0 for NOP (30_encoding.md R64, R66). -/
theorem decode_channel {w : Word} {i : Instr} (h : decode w = .ok i) : i.channel?.getD 0#8 = chField w := by
  have honly : ∀ mk : Byte → Instr, decodeChannelOnly w mk = .ok i → i = mk (chField w) := fun mk hm => by
    unfold decodeChannelOnly at hm
    split at hm
    · exact (Except.ok.inj hm).symm
    · cases hm
  rcases decode_cases w with ⟨-, e⟩ | ⟨-, e⟩ | ⟨-, e⟩ | ⟨-, e⟩ | ⟨-, e⟩ | ⟨-, e⟩ | ⟨-, e⟩ | ⟨-, e⟩ <;> rw [e] at h
  · split at h
    · rename_i hz
      obtain ⟨-, hch, -⟩ := hz
      obtain rfl := Except.ok.inj h
      exact hch.symm
    · cases h
  · split at h
    · obtain rfl := Except.ok.inj h; rfl
    · cases h
  · rw [honly _ h]; rfl
  · rw [honly _ h]; rfl
  · rw [honly _ h]; rfl
  · rw [honly _ h]; rfl
  · rw [honly _ h]; rfl
  · cases h

/-- The last response rejects a frame of channel `k`. -/
def State.RejectsOn (t : State) (k : Nat) : Prop :=
  ∃ r, t.resp = some r ∧ r.kind = .frameRejected ∧ r.rch.toNat = k

@[simp] theorem emit_rejectsOn (s : State) (r : Response) (k : Nat) :
    (s.emit r).RejectsOn k ↔ r.kind = .frameRejected ∧ r.rch.toNat = k := by
  simp [State.RejectsOn]

section
variable {w : Word} {s t : State}

/-- Everything a word that answers a next state can do: emit a response alone, or take the effect of its command on the
channel its `CH` field names. -/
theorem runWord_next (h : runWord w s = .next t) :
    (∃ r, t = s.emit r ∧ r.kind ≠ .frameRejected ∧ r.rch = chField w) ∨
    (∃ i ch ch' r, s.channel? (chField w) = some ch ∧ channelEffect s.startMarker s.registry i ch = .ok (ch', r) ∧
      r.rch = chField w ∧ t = (s.setChannel (chField w) ch').emit r) := by
  unfold runWord at h
  cases hd : decode w with
  | error e =>
    rw [hd] at h
    exact .inl ⟨_, (Host.Outcome.next.inj h).symm, Kind.noConfusion, rfl⟩
  | ok i =>
    rw [hd] at h
    have hw := decode_channel hd
    replace h : exec i s = .next t := h
    cases hi : i.channel? with
    | none =>
      rw [exec_unnamed hi] at h
      rw [hi] at hw
      exact .inl ⟨_, (Host.Outcome.next.inj h).symm, Kind.noConfusion, hw⟩
    | some c =>
      obtain rfl : c = chField w := by rwa [hi] at hw
      cases hc : s.channel? (chField w) with
      | none =>
        rw [exec_badChannel hi hc] at h
        exact .inl ⟨_, (Host.Outcome.next.inj h).symm, Kind.noConfusion, rfl⟩
      | some ch =>
        obtain ⟨ch', r, he, rfl⟩ := exec_next_effect hi hc h
        exact .inr ⟨i, ch, ch', r, rfl, he, (channelEffect_rch he).trans hw, rfl⟩

/-- Everything a step that answers a next state can do. -/
theorem step_next (h : step s = .next t) :
    (s.port = [] ∧ t = { s with resp := none }) ∨
    (∃ rest, s.port = .reset :: rest ∧ t = applyReset { s with port := rest }) ∨
    (∃ w rest, s.port = .command w :: rest ∧ runWord w { s with port := rest } = .next t) := by
  unfold step takeEvent at h
  split at h
  · rename_i hp; exact .inl ⟨hp, (Host.Outcome.next.inj h).symm⟩
  · rename_i rest hp; exact .inr (.inl ⟨rest, hp, (Host.Outcome.next.inj h).symm⟩)
  · rename_i w rest hp; exact .inr (.inr ⟨w, rest, hp, h⟩)

/-- A word counts a rejection on the channel its FRAME_REJECTED names, and on no other. -/
theorem runWord_drops {k : Nat} {ch ch' : Channel} (h : runWord w s = .next t) (hc : s.channels[k]? = some ch)
    (hc' : t.channels[k]? = some ch') :
    (t.RejectsOn k ∧ ch'.drops = satInc ch.drops) ∨ (¬ t.RejectsOn k ∧ ch'.drops = ch.drops) := by
  rcases runWord_next h with ⟨r, rfl, hk, -⟩ | ⟨i, a, a', r, ha, he, hr, rfl⟩
  · obtain rfl : ch = ch' := Option.some.inj (hc.symm.trans hc')
    exact .inr ⟨fun hr => hk ((emit_rejectsOn _ r k).mp hr).1, rfl⟩
  · by_cases hk : (chField w).toNat = k
    · subst hk
      obtain rfl : a = ch := Option.some.inj (ha.symm.trans hc)
      obtain rfl : a' = ch' := Option.some.inj ((channel?_setChannel_same a' ha).symm.trans hc')
      rcases channelEffect_drops he with ⟨hk, hd⟩ | ⟨hk, hd⟩
      · exact .inl ⟨(emit_rejectsOn _ r _).mpr ⟨hk, congrArg BitVec.toNat hr⟩, hd⟩
      · exact .inr ⟨fun hj => hk ((emit_rejectsOn _ r _).mp hj).1, hd⟩
    · rw [emit_channels, channels_setChannel_other s _ a' hk, hc] at hc'
      obtain rfl := Option.some.inj hc'
      exact .inr ⟨fun hj => hk (hr ▸ ((emit_rejectsOn _ r k).mp hj).2), rfl⟩

end

/-- Settles O32: a reset clears the count, a command counts its own rejection, and with no event nothing counts. -/
theorem dropsCountRejections : Obligations.DropsCountRejections := by
  unfold Obligations.DropsCountRejections
  intro s t k ch ch' h hc hc'
  rcases step_next h with ⟨hp, rfl⟩ | ⟨rest, hp, rfl⟩ | ⟨w, rest, hp, hw⟩ <;> rw [hp]
  · obtain rfl : ch = ch' := Option.some.inj (hc.symm.trans hc')
    exact ⟨nofun, fun _ => ⟨nofun, fun _ => rfl, Nat.le_refl _⟩⟩
  · refine ⟨fun _ => ?_, fun hn => absurd rfl hn⟩
    rw [applyReset_channels, List.getElem?_map, hc] at hc'
    obtain rfl := Option.some.inj hc'
    exact resetChannel_drops ch
  · have hlt := ch.drops.isLt
    refine ⟨nofun, fun _ => ?_⟩
    rcases runWord_drops hw hc hc' with ⟨hr, hd⟩ | ⟨hr, hd⟩ <;> rw [hd]
    · rw [satInc_toNat]
      exact ⟨fun _ => rfl, fun hn => absurd hr hn, by omega⟩
    · exact ⟨fun h => absurd h hr, fun _ => rfl, Nat.le_refl _⟩

end Sys2Proof.Machine
end

section
/-! Payload bytes the candidate frame has not taken are never observed (10_state.md R30, 93_implementation_defined.md I4). -/

namespace Sys2Proof.Machine

section
variable {m : Byte} {reg : Registry} {b : Byte} {ch ch' : Channel} {o : ParseOutcome} {q : Memory}

/-- How many payload bytes the candidate frame of a channel has taken. -/
def Channel.taken (ch : Channel) : Nat :=
  if ch.phase = 6#4 then ch.cnt.toNat else if ch.phase = 7#4 ∨ ch.phase = 8#4 then ch.len.toNat else 0

/-- Two buffers agree on the payload bytes that `ch` has taken. -/
def Channel.AgreeOnTaken (ch : Channel) (p q : Memory) : Prop :=
  ∀ i < ch.taken, p.read i = q.read i

theorem sameButStale_iff {x y : Channel} :
    SameButStale x y ↔ { x with pb := y.pb } = y ∧ x.AgreeOnTaken x.pb y.pb := by
  refine and_congr_right fun _ => forall_congr' fun i => ?_
  have hi : (x.phase = 6#4 ∧ i < x.cnt.toNat) ∨ ((x.phase = 7#4 ∨ x.phase = 8#4) ∧ i < x.len.toNat) ↔ i < x.taken := by
    unfold Channel.taken
    by_cases h6 : x.phase = 6#4
    · simp [h6]
    · by_cases h78 : x.phase = 7#4 ∨ x.phase = 8#4 <;> simp [h6, h78]
  rw [hi]

/-- A byte taken adds at most itself to the payload bytes taken, and that in IN_PAYLOAD alone. -/
theorem feedByte_taken (h : feedByte m reg b ch = .ok (ch', o)) :
    (ch.phase ≠ 6#4 ∧ ch'.taken ≤ ch.taken) ∨ (ch.phase = 6#4 ∧ ch'.taken = ch.taken + 1) := by
  rcases feedByte_ok h with ⟨hp, -, -, rfl⟩ | ⟨hp, -, -, rfl⟩ | ⟨hp, -, rfl⟩ | ⟨hp, -, rfl⟩ | ⟨hp, -, rfl⟩ |
      ⟨hp, -, rfl⟩ | ⟨hp, hl, -, rfl⟩ | ⟨hp, hl, -, rfl⟩ | ⟨hp, hc, hl, -, rfl⟩ | ⟨hp, hc, hl, -, rfl⟩ | ⟨hp, -, rfl⟩ |
      ⟨hp, -, -, rfl⟩ | ⟨hp, -, -, rfl⟩ <;> simp [Channel.taken, hp]
  · simp [hl]
  · exact hl.symm
  · unfold pbSize at hc; omega

/-- AbsorbExtra neither reads nor writes the payload buffer. -/
theorem absorbExtra_set_pb (ch : Channel) (q : Memory) :
    absorbExtra { ch with pb := q } = { absorbExtra ch with pb := q } := by
  unfold absorbExtra; split <;> rfl

/-- The advance in IN_PAYLOAD neither reads nor writes the payload buffer. -/
theorem payloadAdvance_set_pb (ch : Channel) :
    payloadAdvance { ch with pb := q } = { payloadAdvance ch with pb := q } := by
  unfold payloadAdvance
  split
  · rw [absorbExtra_set_pb]
  · rfl

/-- The frame record reads the payload buffer below `LEN` alone (30_encoding.md R71). -/
theorem frameOf_set_pb (h : ∀ i < ch.len.toNat, ch.pb.read i = q.read i) :
    frameOf m b { ch with pb := q } = frameOf m b ch := by
  simp only [frameOf, receivedChecksum, Memory.take_congr h]

/-- In a phase that neither writes nor reads the payload buffer, a byte taken with another buffer gives the same but for
that buffer. -/
theorem feedByte_set_pb_header (h : feedByte m reg b ch = .ok (ch', o)) (h6 : ch.phase ≠ 6#4) (h8 : ch.phase ≠ 8#4) :
    feedByte m reg b { ch with pb := q } = .ok ({ ch' with pb := q }, o) := by
  rcases feedByte_ok h with ⟨hp, hb, rfl, rfl⟩ | ⟨hp, hb, rfl, rfl⟩ | ⟨hp, rfl, rfl⟩ | ⟨hp, rfl, rfl⟩ | ⟨hp, rfl, rfl⟩ |
      ⟨hp, rfl, rfl⟩ | ⟨hp, hl, rfl, rfl⟩ | ⟨hp, hl, rfl, rfl⟩ | ⟨hp, -⟩ | ⟨hp, -⟩ | ⟨hp, rfl, rfl⟩ | ⟨hp, -⟩ | ⟨hp, -⟩
  · rw [feedByte_idle (by exact hp), feedIdle, if_pos hb]; rfl
  · rw [feedByte_idle (by exact hp), feedIdle, if_neg hb]
  · rw [feedByte_length (by exact hp)]; rfl
  · rw [feedByte_sequence (by exact hp)]; rfl
  · rw [feedByte_systemId (by exact hp)]; rfl
  · rw [feedByte_componentId (by exact hp)]; rfl
  · rw [feedByte_messageId_empty (by exact hp) (by exact hl), absorbExtra_set_phase, ← absorbExtra_set_pb]; rfl
  · rw [feedByte_messageId_payload (by exact hp) (by exact hl)]; rfl
  · exact absurd hp h6
  · exact absurd hp h6
  · rw [feedByte_checksumLow (by exact hp)]; rfl
  · exact absurd hp h8
  · exact absurd hp h8

/-- A byte taken with another buffer that agrees on the bytes taken: the outcome is the same, and so is the channel but
for its buffer. -/
theorem feedByte_set_pb (h : feedByte m reg b ch = .ok (ch', o)) (hq : ch.AgreeOnTaken ch.pb q) :
    feedByte m reg b { ch with pb := q } = .ok ({ ch' with pb := bufferAfter b ch q }, o) := by
  by_cases h6 : ch.phase = 6#4
  · rw [feedByte_payload h6] at h
    rw [feedByte_payload (by exact h6), bufferAfter_payload h6]
    unfold feedPayload at h ⊢
    split at h
    · rename_i hc
      obtain ⟨rfl, rfl⟩ := Prod.mk.inj (Except.ok.inj h)
      rw [if_pos (by exact hc)]
      exact congrArg (fun c => Except.ok (c, _)) (payloadAdvance_set_pb (payloadStore b ch))
    · cases h
  · rw [bufferAfter_other h6]
    by_cases h8 : ch.phase = 8#4
    · have hlen : ∀ i < ch.len.toNat, ch.pb.read i = q.read i := by
        simpa [Channel.AgreeOnTaken, Channel.taken, h8] using hq
      rw [feedByte_checksumHigh h8] at h
      rw [feedByte_checksumHigh (by exact h8), feedChecksumHigh, frameOf_set_pb hlen]
      unfold feedChecksumHigh at h
      by_cases hv : validFrame ch b = true
      · rw [if_pos hv] at h
        obtain ⟨rfl, rfl⟩ := Prod.mk.inj (Except.ok.inj h)
        rw [if_pos (by exact hv)]; rfl
      · rw [if_neg hv] at h
        obtain ⟨rfl, rfl⟩ := Prod.mk.inj (Except.ok.inj h)
        rw [if_neg (by exact hv)]; rfl
    · exact feedByte_set_pb_header h h6 h8

/-- The same for a byte that is not taken. -/
theorem feedByte_set_pb_error {e : Fault} (h : feedByte m reg b ch = .error e) :
    feedByte m reg b { ch with pb := q } = .error e := by
  rcases feedByte_error h with ⟨h9, rfl⟩ | ⟨h6, hc, rfl⟩
  · exact feedByte_unused h9
  · rw [feedByte_payload (by exact h6), feedPayload, if_neg (by exact Nat.not_lt.mpr hc)]

/-- Buffers that agree on the bytes taken still agree on them after one more byte. -/
theorem AgreeOnTaken.after_byte (h : feedByte m reg b ch = .ok (ch', o)) (hq : ch.AgreeOnTaken ch.pb q) :
    ch'.AgreeOnTaken ch'.pb (bufferAfter b ch q) := by
  intro i hi
  rw [feedByte_pb h]
  rcases feedByte_taken h with ⟨h6, ht⟩ | ⟨h6, ht⟩
  · rw [bufferAfter_other h6, bufferAfter_other h6]
    exact hq i (by omega)
  · have hcnt : ch.taken = ch.cnt.toNat := if_pos h6
    rw [bufferAfter_payload h6, bufferAfter_payload h6, Memory.read_write, Memory.read_write]
    by_cases hic : i = ch.cnt.toNat
    · rw [if_pos hic, if_pos hic]
    · rw [if_neg hic, if_neg hic]
      exact hq i (by omega)

/-- A command on two channels that differ in stale bytes alone: the same response and channels that again do, or the same
fault. -/
theorem channelEffect_stale (m : Byte) (reg : Registry) (i : Instr) {x y : Channel} (h : SameButStale x y) :
    (∃ x' y' r, channelEffect m reg i x = .ok (x', r) ∧ channelEffect m reg i y = .ok (y', r) ∧ SameButStale x' y') ∨
    (∃ e, channelEffect m reg i x = .error e ∧ channelEffect m reg i y = .error e) := by
  obtain ⟨hxy, hq⟩ := sameButStale_iff.mp h
  generalize y.pb = q at hxy hq
  subst hxy
  cases i with
  | feed c b =>
    cases hf : feedByte m reg b x with
    | ok p =>
      exact .inl ⟨_, _, _, channelEffect_feed_ok hf, channelEffect_feed_ok (feedByte_set_pb hf hq),
        sameButStale_iff.mpr ⟨rfl, AgreeOnTaken.after_byte hf hq⟩⟩
    | error e => exact .inr ⟨e, channelEffect_feed_error hf, channelEffect_feed_error (feedByte_set_pb_error hf)⟩
  | chrst c => exact .inl ⟨_, _, _, rfl, rfl, sameButStale_iff.mpr ⟨rfl, fun i hi => absurd hi (Nat.not_lt_zero i)⟩⟩
  | _ => exact .inl ⟨_, _, _, rfl, rfl, h⟩

end

/-- A command commutes with replacing a channel it does not name. -/
theorem exec_setChannel_other {i : Instr} {c : Byte} (hi : i.channel? ≠ some c) (s : State) (y : Channel) :
    (∃ t, exec i s = .next t ∧ t.channels[c.toNat]? = s.channels[c.toNat]? ∧
      exec i (s.setChannel c y) = .next (t.setChannel c y)) ∨
    (∃ e, exec i s = .fault e ∧ exec i (s.setChannel c y) = .fault e) := by
  cases hd : i.channel? with
  | none => exact .inl ⟨_, exec_unnamed hd, rfl, exec_unnamed hd⟩
  | some d =>
    have hne : c.toNat ≠ d.toNat := fun e => hi (by rw [hd, BitVec.eq_of_toNat_eq e])
    have hsame : (s.setChannel c y).channel? d = s.channel? d := channels_setChannel_other s c y hne
    cases hc : s.channel? d with
    | none => exact .inl ⟨_, exec_badChannel hd hc, rfl, exec_badChannel hd (hsame.trans hc)⟩
    | some ch =>
      rw [exec_eq_leaveEffect hd hc, exec_eq_leaveEffect hd (hsame.trans hc), setChannel_startMarker,
        setChannel_registry]
      cases channelEffect s.startMarker s.registry i ch with
      | ok p =>
        refine .inl ⟨_, rfl, channels_setChannel_other s d p.1 hne.symm, ?_⟩
        simp only [leaveEffect, State.setChannel, State.emit, List.set_comm _ _ hne]
      | error e => exact .inr ⟨e, rfl, rfl⟩

/-- Settles O37: on the channel that differs, a command reads no stale byte (`channelEffect_stale`); on any other it does
not see the difference (`exec_setChannel_other`). -/
theorem staleBytesAreNeverObserved : Obligations.StaleBytesAreNeverObserved := by
  unfold Obligations.StaleBytesAreNeverObserved
  intro s i c a b ha hab
  by_cases hi : i.channel? = some c
  · have hb : (s.setChannel c b).channel? c = some b := channel?_setChannel_same b ha
    rcases channelEffect_stale s.startMarker s.registry i hab with ⟨a', b', r, ha', hb', hab'⟩ | ⟨e, ha', hb'⟩
    · refine .inl ⟨_, a', b', exec_effect_ok hi ha ha', channel?_setChannel_same a' ha, hab',
        (exec_effect_ok hi hb hb').trans ?_⟩
      simp only [State.setChannel, State.emit, List.set_set]
    · exact .inr ⟨e, exec_effect_error hi ha ha', exec_effect_error hi hb hb'⟩
  · rcases exec_setChannel_other hi s b with ⟨t, ht, hc, ht'⟩ | ⟨e, he, he'⟩
    · exact .inl ⟨t, a, b, ht, hc.trans ha, hab, ht'⟩
    · exact .inr ⟨e, he, he'⟩

end Sys2Proof.Machine
end

section
/-! Every step keeps the invariant (10_state.md section 4), and what follows for the states reached from reset (R37). -/

namespace Sys2Proof.Machine

/-! ### The bytes the checksum covers, by phase (10_state.md R23) -/

section
variable {m : Byte} {reg : Registry} {b : Byte} {ch ch' : Channel} {o : ParseOutcome}

/-- Before the checksum phases, `CRC` is that of the bytes covered. -/
theorem expectedCrc_of_lt (h : ch.phase.toNat < 7) : expectedCrc ch = crcOver crcInit (coveredBytes ch) :=
  if_neg fun h' => Nat.not_le.mpr h h'.1

/-- In the checksum phases, `XTRA` is absorbed when a descriptor was found. -/
theorem expectedCrc_of_le (h : 7 ≤ ch.phase.toNat) :
    expectedCrc ch =
      if ch.dfound = true then crcAcc (crcOver crcInit (coveredBytes ch)) ch.xtra
      else crcOver crcInit (coveredBytes ch) := by
  simp only [expectedCrc, h, true_and]

theorem coveredBytes_idle (hp : ch.phase = 0#4) : coveredBytes ch = [] := by
  simp [coveredBytes, hp, phaseOf]

theorem coveredBytes_gotLength (hp : ch.phase = 1#4) : coveredBytes ch = [] := by
  simp [coveredBytes, hp, phaseOf]

theorem coveredBytes_gotSequence (hp : ch.phase = 2#4) : coveredBytes ch = [ch.len] := by
  simp [coveredBytes, hp, phaseOf, headerBytes]

theorem coveredBytes_gotSystemId (hp : ch.phase = 3#4) : coveredBytes ch = [ch.len, ch.seq] := by
  simp [coveredBytes, hp, phaseOf, headerBytes]

theorem coveredBytes_gotComponentId (hp : ch.phase = 4#4) : coveredBytes ch = [ch.len, ch.seq, ch.sys] := by
  simp [coveredBytes, hp, phaseOf, headerBytes]

theorem coveredBytes_gotMessageId (hp : ch.phase = 5#4) : coveredBytes ch = [ch.len, ch.seq, ch.sys, ch.comp] := by
  simp [coveredBytes, hp, phaseOf, headerBytes]

theorem coveredBytes_inPayload (hp : ch.phase = 6#4) :
    coveredBytes ch = headerBytes ch ++ ch.pb.take ch.cnt.toNat := by
  simp [coveredBytes, hp, phaseOf]

theorem coveredBytes_checksum (hp : ch.phase = 7#4 ∨ ch.phase = 8#4) :
    coveredBytes ch = headerBytes ch ++ ch.pb.take ch.len.toNat := by
  rcases hp with hp | hp <;> simp [coveredBytes, hp, phaseOf]

/-! ### Each transition keeps the invariant of its channel -/

/-- The fields of a candidate frame that are 0 until their byte is taken, together, for use by `simp`. -/
theorem Channel.Inv.untaken (h : ch.Inv reg) :
    (ch.phase.toNat ≤ 1 → ch.len = 0#8) ∧ (ch.phase.toNat ≤ 2 → ch.seq = 0#8) ∧
    (ch.phase.toNat ≤ 3 → ch.sys = 0#8) ∧ (ch.phase.toNat ≤ 4 → ch.comp = 0#8) ∧
    (ch.phase.toNat ≤ 5 → ch.msgid = 0#8) ∧
    (ch.phase.toNat ≤ 5 → ch.dfound = false ∧ ch.xtra = 0#8 ∧ ch.lenok = false) ∧
    (ch.phase.toNat ≠ 6 → ch.cnt = 0#8) ∧ (ch.phase.toNat ≠ 8 → ch.cklo = 0#8) :=
  ⟨h.len_untaken, h.seq_untaken, h.sys_untaken, h.comp_untaken, h.msgid_untaken, h.latch_clear, h.cnt_zero,
    h.cklo_untaken⟩

/-- Before the checksum phases, the running checksum is that of the bytes covered. -/
theorem Channel.Inv.crc_covered (h : ch.Inv reg) (hp : ch.phase.toNat < 7) :
    ch.crc = crcOver crcInit (coveredBytes ch) := h.crc_value.trans (expectedCrc_of_lt hp)

/-- IDLE, the start marker (40_feed.md R101). -/
theorem Channel.Inv.started (h : ch.Inv reg) (hp : ch.phase = 0#4) :
    Channel.Inv reg { ch with crc := crcInit, phase := 1#4 } := by
  constructor
  case pb_wf => exact h.pb_wf
  case crc_value => rfl
  all_goals simp [h.untaken, hp]

/-- GOT_LENGTH (R103). -/
theorem Channel.Inv.length_taken (h : ch.Inv reg) (hp : ch.phase = 1#4) :
    Channel.Inv reg { ch with len := b, crc := crcAcc ch.crc b, phase := 2#4 } := by
  constructor
  case pb_wf => exact h.pb_wf
  case crc_value => rw [h.crc_covered (by simp [hp]), coveredBytes_gotLength hp]; rfl
  all_goals simp [h.untaken, hp]

/-- GOT_SEQUENCE (R104). -/
theorem Channel.Inv.sequence_taken (h : ch.Inv reg) (hp : ch.phase = 2#4) :
    Channel.Inv reg { ch with seq := b, crc := crcAcc ch.crc b, phase := 3#4 } := by
  constructor
  case pb_wf => exact h.pb_wf
  case crc_value => rw [h.crc_covered (by simp [hp]), coveredBytes_gotSequence hp]; rfl
  all_goals simp [h.untaken, hp]

/-- GOT_SYSTEM_ID (R105). -/
theorem Channel.Inv.systemId_taken (h : ch.Inv reg) (hp : ch.phase = 3#4) :
    Channel.Inv reg { ch with sys := b, crc := crcAcc ch.crc b, phase := 4#4 } := by
  constructor
  case pb_wf => exact h.pb_wf
  case crc_value => rw [h.crc_covered (by simp [hp]), coveredBytes_gotSystemId hp]; rfl
  all_goals simp [h.untaken, hp]

/-- GOT_COMPONENT_ID (R106). -/
theorem Channel.Inv.componentId_taken (h : ch.Inv reg) (hp : ch.phase = 4#4) :
    Channel.Inv reg { ch with comp := b, crc := crcAcc ch.crc b, phase := 5#4 } := by
  constructor
  case pb_wf => exact h.pb_wf
  case crc_value => rw [h.crc_covered (by simp [hp]), coveredBytes_gotComponentId hp]; rfl
  all_goals simp [h.untaken, hp]

/-- GOT_MESSAGE_ID of a frame with payload (R107). -/
theorem Channel.Inv.messageId_taken_payload (h : ch.Inv reg) (hp : ch.phase = 5#4) (hl : ch.len ≠ 0#8) :
    Channel.Inv reg { takeMessageId reg b ch with cnt := 0#8, phase := 6#4 } := by
  constructor
  case pb_wf => exact h.pb_wf
  case cnt_below => exact fun _ => Nat.pos_of_ne_zero fun h0 => hl (BitVec.eq_of_toNat_eq h0)
  case crc_value => rw [takeMessageId_crc, h.crc_covered (by simp [hp]), coveredBytes_gotMessageId hp]; rfl
  all_goals simp [h.untaken, hp]

/-- GOT_MESSAGE_ID of a frame without payload (R107). -/
theorem Channel.Inv.messageId_taken_empty (h : ch.Inv reg) (hp : ch.phase = 5#4) (hl : ch.len = 0#8) :
    Channel.Inv reg { absorbExtra (takeMessageId reg b ch) with phase := 7#4 } := by
  constructor
  case pb_wf => simpa using h.pb_wf
  case crc_value =>
    rw [expectedCrc_of_le (by simp), coveredBytes_checksum (.inl rfl)]
    simp [absorbExtra_crc, h.crc_covered, hp, coveredBytes_gotMessageId hp, hl, headerBytes]
  all_goals simp [h.untaken, hp]

/-- The bytes covered once a payload byte is stored at index `CNT`. -/
theorem Channel.Inv.crc_stored (h : ch.Inv reg) (hp : ch.phase = 6#4) :
    crcAcc ch.crc b =
      crcOver crcInit (headerBytes ch ++ (Memory.write ch.pb ch.cnt.toNat b).take (ch.cnt.toNat + 1)) := by
  rw [h.crc_covered (by simp [hp]), coveredBytes_inPayload hp, Memory.take_write, ← List.append_assoc,
    crcOver_append _ _ [b]]
  rfl

/-- The last payload byte (R108, R109). -/
theorem Channel.Inv.payload_taken_last (h : ch.Inv reg) (hp : ch.phase = 6#4) (hc : ch.cnt.toNat < pbSize)
    (hl : ch.cnt.toNat + 1 = ch.len.toNat) :
    Channel.Inv reg { absorbExtra (payloadStore b ch) with cnt := 0#8, phase := 7#4 } := by
  constructor
  case pb_wf => simpa using Memory.write_wf h.pb_wf hc b
  case latch_resolved => simpa using h.latch_resolved (by simp [hp])
  case crc_value =>
    rw [expectedCrc_of_le (by simp), coveredBytes_checksum (.inl rfl)]
    simp [absorbExtra_crc, h.crc_stored hp, hl, headerBytes]
  all_goals simp [h.untaken, hp]

/-- A payload byte that is not the last (R108, R109). -/
theorem Channel.Inv.payload_taken_more (h : ch.Inv reg) (hp : ch.phase = 6#4) (hc : ch.cnt.toNat < pbSize)
    (hl : ch.cnt.toNat + 1 ≠ ch.len.toNat) :
    Channel.Inv reg { payloadStore b ch with cnt := ch.cnt + 1#8 } := by
  have hlt := h.cnt_below (by simp [hp])
  have hcnt : (ch.cnt + 1#8).toNat = ch.cnt.toNat + 1 :=
    BitVec.toNat_add_of_lt (by simp only [BitVec.toNat_ofNat]; unfold pbSize at hc; omega)
  constructor
  case pb_wf => exact Memory.write_wf h.pb_wf hc b
  case latch_resolved => exact h.latch_resolved
  case cnt_below => intro _; rw [hcnt]; exact Nat.lt_of_le_of_ne hlt hl
  case crc_value =>
    rw [expectedCrc_of_lt (by simp [hp]), coveredBytes_inPayload (by exact hp)]
    simp [h.crc_stored hp, hcnt, headerBytes]
  all_goals simp [h.untaken, hp]

/-- GOT_CHECKSUM_LOW (R111). -/
theorem Channel.Inv.checksumLow_taken (h : ch.Inv reg) (hp : ch.phase = 7#4) :
    Channel.Inv reg { ch with cklo := b, phase := 8#4 } := by
  constructor
  case pb_wf => exact h.pb_wf
  case latch_resolved => exact fun _ => h.latch_resolved (by simp [hp])
  case crc_value =>
    rw [expectedCrc_of_le (by simp), coveredBytes_checksum (.inr rfl), h.crc_value, expectedCrc_of_le (by simp [hp]),
      coveredBytes_checksum (.inl hp)]
    rfl
  all_goals simp [h.untaken, hp]

theorem Channel.Inv.cleared (h : ch.Inv reg) (d : BitVec 32) : (clearFrame { ch with drops := d }).Inv reg :=
  Channel.inv_of_cleared reg d h.pb_wf

/-- A byte taken keeps the invariant of its channel. -/
theorem Channel.Inv.of_feedByte (h : ch.Inv reg) (hf : feedByte m reg b ch = .ok (ch', o)) : ch'.Inv reg := by
  rcases feedByte_ok hf with ⟨hp, -, -, rfl⟩ | ⟨-, -, -, rfl⟩ | ⟨hp, -, rfl⟩ | ⟨hp, -, rfl⟩ | ⟨hp, -, rfl⟩ |
      ⟨hp, -, rfl⟩ | ⟨hp, hl, -, rfl⟩ | ⟨hp, hl, -, rfl⟩ | ⟨hp, hc, hl, -, rfl⟩ | ⟨hp, hc, hl, -, rfl⟩ | ⟨hp, -, rfl⟩ |
      ⟨-, -, -, rfl⟩ | ⟨-, -, -, rfl⟩
  · exact h.started hp
  · exact h
  · exact h.length_taken hp
  · exact h.sequence_taken hp
  · exact h.systemId_taken hp
  · exact h.componentId_taken hp
  · exact h.messageId_taken_empty hp hl
  · exact h.messageId_taken_payload hp hl
  · exact h.payload_taken_last hp hc hl
  · exact h.payload_taken_more hp hc hl
  · exact h.checksumLow_taken hp
  · exact h.cleared ch.drops
  · exact h.cleared (satInc ch.drops)

/-- A command keeps the invariant of the channel it names. -/
theorem Channel.Inv.of_channelEffect {i : Instr} {r : Response} (h : ch.Inv reg)
    (he : channelEffect m reg i ch = .ok (ch', r)) : ch'.Inv reg := by
  rcases channelEffect_ok he with ⟨_, _, rfl, -⟩ | ⟨_, -, rfl, -⟩ | ⟨_, _, _, -, hf, -⟩
  · exact h
  · exact h.cleared ch.drops
  · exact h.of_feedByte hf

end

/-! ### Every step keeps the invariant -/

section
variable {s t : State}

/-- A state with the same channels and parameters meets the invariant. -/
theorem State.Inv.congr (h : s.Inv) (hr : t.registry = s.registry) (hc : t.channels = s.channels) : t.Inv where
  params_wf := by
    obtain ⟨h1, h2, h3⟩ := h.params_wf
    simp only [Params.wf, State.params] at h1 h2 h3 ⊢
    rw [hr, hc]
    exact ⟨h1, h2, h3⟩
  channels_inv := by rw [hr, hc]; exact h.channels_inv

theorem State.Inv.channel (h : s.Inv) {c : Byte} {ch : Channel} (hc : s.channel? c = some ch) : ch.Inv s.registry :=
  h.channels_inv ch (List.mem_of_getElem? hc)

theorem State.Inv.setChannel (h : s.Inv) (c : Byte) {ch : Channel} (hch : ch.Inv s.registry) :
    (s.setChannel c ch).Inv where
  params_wf := by rw [params_setChannel]; exact h.params_wf
  channels_inv a ha := (List.mem_or_eq_of_mem_set ha).elim (h.channels_inv a) fun e => e ▸ hch

theorem State.Inv.applyReset (h : s.Inv) : (applyReset s).Inv where
  params_wf := by rw [params_applyReset]; exact h.params_wf
  channels_inv a ha := by
    obtain ⟨ch, hch, rfl⟩ := List.mem_map.mp ha
    exact Channel.inv_of_cleared s.registry 0#32 (h.channels_inv ch hch).pb_wf

theorem State.Inv.of_runWord {w : Word} (h : s.Inv) (hw : runWord w s = .next t) : t.Inv := by
  rcases runWord_next hw with ⟨r, rfl, -, -⟩ | ⟨i, ch, ch', r, hc, he, -, rfl⟩
  · exact h.congr rfl rfl
  · exact (h.setChannel _ ((h.channel hc).of_channelEffect he)).congr rfl rfl

theorem State.Inv.of_step (h : s.Inv) (hs : step s = .next t) : t.Inv := by
  rcases step_next hs with ⟨-, rfl⟩ | ⟨rest, -, rfl⟩ | ⟨w, rest, -, hw⟩
  · exact h.congr rfl rfl
  · exact (h.congr (t := { s with port := rest }) rfl rfl).applyReset
  · exact (h.congr (t := { s with port := rest }) rfl rfl).of_runWord hw

end

/-- Settles O40: a step resets every channel, or changes one by a command's effect. -/
theorem stepKeepsTheInvariant : Obligations.StepKeepsTheInvariant :=
  fun _ _ h hs => h.of_step hs

/-! ### The states reached from reset -/

section
variable {s t : State}

/-- What every step keeps holds after every run. -/
theorem observe_keeps {P : State → Prop} (hstep : ∀ s t, P s → step s = .next t → P t) {n : Nat}
    {rs : List Response} (h : P s) (ho : observe n s = some (rs, t)) : P t := by
  induction n generalizing s rs with
  | zero => obtain ⟨-, rfl⟩ := Prod.mk.inj (Option.some.inj ho); exact h
  | succ n ih =>
    cases hs : step s with
    | next u =>
      rw [observe_succ n hs] at ho
      obtain ⟨⟨qs, v⟩, hq, he⟩ := Option.map_eq_some_iff.mp ho
      obtain ⟨-, rfl⟩ := Prod.mk.inj he
      exact ih (hstep s u h hs) hq
    | fault e => simp [observe, hs] at ho
    | refused e => simp [observe, hs] at ho

theorem reachableFrom_inv {p : Params} (hp : p.wf) (h : ReachableFrom p s) : s.Inv := by
  obtain ⟨events, n, rs, ho⟩ := h
  exact observe_keeps (s := { State.resetWith p with port := events }) (fun _ _ => State.Inv.of_step)
    ((resetWith_inv hp).congr rfl rfl) ho

end

section
variable {reg : Registry} {ch : Channel}

/-- A found length implies a found descriptor (10_state.md R28). -/
theorem latchOf_lenok {d : Option Descriptor} {len : Byte} (h : (latchOf d len).2.2 = true) :
    (latchOf d len).1 = true := by
  cases d with
  | none => exact h
  | some e => rfl

/-- In IDLE and GOT_LENGTH the frame is clear. -/
theorem Channel.Inv.clear (h : ch.Inv reg) (hp : ch.phase = 0#4 ∨ ch.phase = 1#4) :
    ch = { Channel.reset with phase := ch.phase, drops := ch.drops, pb := ch.pb } := by
  have hle : ch.phase.toNat ≤ 1 := by rcases hp with hp | hp <;> simp [hp]
  have hcrc : ch.crc = crcInit := by
    rw [h.crc_covered (by omega), hp.elim coveredBytes_idle coveredBytes_gotLength, crcOver_nil]
  obtain ⟨hlen, hseq, hsys, hcomp, hmsgid, hlatch, hcnt, hcklo⟩ := h.untaken
  obtain ⟨hdfound, hxtra, hlenok⟩ := hlatch (by omega)
  exact (Channel.mk.injEq ..).mpr ⟨rfl, hcrc, hlen hle, hcnt (by omega), hseq (by omega), hsys (by omega),
    hcomp (by omega), hmsgid (by omega), hcklo (by omega), hxtra, hdfound, hlenok, rfl, rfl⟩

theorem Channel.Inv.reachableFacts (h : ch.Inv reg) : ch.ReachableFacts where
  phase_legal := h.phase_legal
  idle_clear hp := (h.clear (.inl hp)).trans (by rw [hp]; rfl)
  length_clear hp := (h.clear (.inr hp)).trans (by rw [hp])
  cnt_payload hc := by
    have h6 : ch.phase.toNat = 6 := by
      by_contra h6
      exact hc (h.cnt_zero h6)
    exact ⟨BitVec.eq_of_toNat_eq h6, h.cnt_below h6⟩
  latch_clear hp := by
    obtain ⟨hd, hx, hl⟩ := h.latch_clear hp
    exact ⟨hd, hl, hx⟩
  lenok_dfound hl := by
    by_cases hp : ch.phase.toNat ≤ 5
    · obtain ⟨-, -, hno⟩ := h.latch_clear hp
      exact absurd hl (by simp [hno])
    · obtain ⟨hd, hx⟩ := Prod.mk.inj (h.latch_resolved (by omega))
      obtain ⟨-, hk⟩ := Prod.mk.inj hx
      rw [hd]
      exact latchOf_lenok (hk ▸ hl)
  checksum_crc hp := by
    rw [h.crc_value, expectedCrc_of_le (by rcases hp with hp | hp <;> simp [hp]), coveredBytes_checksum hp]
    rfl
  cklo_high hc := by
    by_contra hp
    exact hc (h.cklo_untaken fun h8 => hp (BitVec.eq_of_toNat_eq h8))

end

/-- Settles O42: reset meets the invariant, every step keeps it, and in each channel it gives the eight facts. -/
theorem reachableStatesMeetR37 : Obligations.ReachableStatesMeetR37 :=
  fun _ _ hp h ch hch => ((reachableFrom_inv hp h).channels_inv ch hch).reachableFacts

end Sys2Proof.Machine
end

section
/-! Order between channels (20_memory.md R49): what a run answers on one channel, and leaves in it, is what the run of that
channel's own words answers and leaves. -/

namespace Sys2Proof.Machine

/-! ### No word stops in a state with the invariant -/

/-- A channel with the invariant takes every byte: it is in no unused phase, and `CNT` is below 255 in IN_PAYLOAD. -/
theorem Channel.Inv.feedByte_ne_error {reg : Registry} {ch : Channel} (h : ch.Inv reg) (m b : Byte) (e : Fault) :
    feedByte m reg b ch ≠ .error e := fun he => by
  rcases feedByte_error he with ⟨h9, -⟩ | ⟨h6, hc, -⟩
  · have := h.phase_legal
    omega
  · have := h.cnt_below (by simp [h6])
    have := ch.len.isLt
    unfold pbSize at hc
    omega

theorem State.Inv.exec_next {s : State} (h : s.Inv) (i : Instr) : ∃ t, exec i s = .next t := by
  rcases exec_cases i s with ⟨-, e⟩ | ⟨c, -, -, e⟩ | ⟨c, ch, d, -, -, -, e⟩ | ⟨c, ch, -, -, e⟩ |
      ⟨c, b, ch, ch', o, -, -, -, e⟩ | ⟨c, b, ch, f, -, hc, hf, -⟩
  · exact ⟨_, e⟩
  · exact ⟨_, e⟩
  · exact ⟨_, e⟩
  · exact ⟨_, e⟩
  · exact ⟨_, e⟩
  · exact absurd hf ((h.channel hc).feedByte_ne_error _ b f)

theorem State.Inv.runWord_next {s : State} (h : s.Inv) (w : Word) : ∃ t, runWord w s = .next t := by
  cases hd : decode w with
  | ok i => simpa only [runWord, hd] using h.exec_next i
  | error e => exact ⟨_, by rw [runWord, hd]; rfl⟩

/-! ### A run of words, one word at a time -/

/-- A word neither reads nor writes what is still to come on the port. -/
theorem runWord_port {w : Word} {s t : State} (h : runWord w s = .next t) (p : List PortEvent) :
    runWord w { s with port := p } = .next { t with port := p } := by
  unfold runWord at h ⊢
  cases hd : decode w with
  | ok i =>
    rw [hd] at h
    have e := exec_port i s p s.resp
    rwa [show exec i s = .next t from h] at e
  | error e =>
    rw [hd] at h
    obtain rfl := Host.Outcome.next.inj h
    rfl

theorem observeWords_cons_of_runWord {w : Word} {s t : State} {r : Response} (h : runWord w s = .next t)
    (hr : t.resp = some r) (ws : List Word) :
    observeWords (w :: ws) s = (observeWords ws t).map fun p => (r :: p.1, p.2) := by
  have hstep : step (s.present (w :: ws)) = .next (t.present ws) := runWord_port h _
  have e := observe_succ ws.length hstep
  rwa [present_resp, hr] at e

/-! ### What one word does to one channel number -/

/-- Two states with the same parameters besides the number of channels, and the same at channel number `c`. -/
structure State.AgreeOn (c : Byte) (s s' : State) : Prop where
  startMarker_eq : s'.startMarker = s.startMarker
  registry_eq : s'.registry = s.registry
  channel_eq : s'.channel? c = s.channel? c

section
variable {w : Word} {s s' t u : State} {c : Byte}

theorem State.AgreeOn.refl (c : Byte) (s : State) : s.AgreeOn c s := ⟨rfl, rfl, rfl⟩

theorem State.AgreeOn.symm (h : s.AgreeOn c s') : s'.AgreeOn c s :=
  ⟨h.startMarker_eq.symm, h.registry_eq.symm, h.channel_eq.symm⟩

theorem State.AgreeOn.trans (h : s.AgreeOn c t) (h' : t.AgreeOn c u) : s.AgreeOn c u :=
  ⟨h'.startMarker_eq.trans h.startMarker_eq, h'.registry_eq.trans h.registry_eq, h'.channel_eq.trans h.channel_eq⟩

/-- A word answers one response, which names the channel number in its `CH` field, and keeps the parameters. -/
theorem runWord_resp (h : runWord w s = .next t) :
    (∃ r, t.resp = some r ∧ r.rch = chField w) ∧ t.params = s.params := by
  rcases runWord_next h with ⟨r, rfl, -, hr⟩ | ⟨i, ch, ch', r, hc, -, hr, rfl⟩
  · exact ⟨⟨r, rfl, hr⟩, rfl⟩
  · exact ⟨⟨r, rfl, hr⟩, params_setChannel s _ ch'⟩

/-- A word leaves every channel number that its `CH` field does not hold. -/
theorem runWord_other (h : runWord w s = .next t) (hc : chField w ≠ c) : s.AgreeOn c t := by
  rcases runWord_next h with ⟨r, rfl, -, -⟩ | ⟨i, ch, ch', r, -, -, -, rfl⟩
  · exact ⟨rfl, rfl, rfl⟩
  · exact ⟨rfl, rfl, channels_setChannel_other s _ ch' fun e => hc (BitVec.eq_of_toNat_eq e)⟩

/-- A word does the same to two states that agree at the channel number its `CH` field holds. -/
theorem runWord_agree (ha : s.AgreeOn (chField w) s') (h : runWord w s = .next t) :
    ∃ t', runWord w s' = .next t' ∧ t'.resp = t.resp ∧ t.AgreeOn (chField w) t' := by
  unfold runWord at h ⊢
  cases hd : decode w with
  | error e =>
    rw [hd] at h
    obtain rfl := Host.Outcome.next.inj h
    exact ⟨_, rfl, rfl, ha.startMarker_eq, ha.registry_eq, ha.channel_eq⟩
  | ok i =>
    replace h : exec i s = .next t := by rwa [hd] at h
    have hw := decode_channel hd
    cases hi : i.channel? with
    | none =>
      obtain rfl := Host.Outcome.next.inj ((exec_unnamed hi).symm.trans h)
      exact ⟨_, exec_unnamed hi, rfl, ha.startMarker_eq, ha.registry_eq, ha.channel_eq⟩
    | some c =>
      obtain rfl : c = chField w := by rwa [hi] at hw
      obtain ⟨t', ht', hr, hc⟩ :=
        (channelIsolation.2 s s' i _ hi ha.startMarker_eq ha.registry_eq ha.channel_eq).1 t h
      obtain ⟨hp, -⟩ := exec_frame h
      obtain ⟨hp', -⟩ := exec_frame ht'
      exact ⟨t', ht', hr,
        (congrArg Params.startMarker hp').trans (ha.startMarker_eq.trans (congrArg Params.startMarker hp).symm),
        (congrArg Params.registry hp').trans (ha.registry_eq.trans (congrArg Params.registry hp).symm), hc⟩

end

/-! ### Projecting a run on one channel -/

/-- The words of a list that address channel number `c`. -/
def wordsOn (c : Byte) (ws : List Word) : List Word := ws.filter fun w => decide (chField w = c)

/-- The responses of a list that name channel number `c`. -/
def responsesOn (c : Byte) (rs : List Response) : List Response := rs.filter fun r => decide (r.rch = c)

theorem wordsOn_cons_same {c : Byte} {w : Word} (h : chField w = c) (ws : List Word) :
    wordsOn c (w :: ws) = w :: wordsOn c ws := List.filter_cons_of_pos (decide_eq_true h)

theorem wordsOn_cons_other {c : Byte} {w : Word} (h : chField w ≠ c) (ws : List Word) :
    wordsOn c (w :: ws) = wordsOn c ws := List.filter_cons_of_neg (by simpa using h)

theorem responsesOn_cons_same {c : Byte} {r : Response} (h : r.rch = c) (rs : List Response) :
    responsesOn c (r :: rs) = r :: responsesOn c rs := List.filter_cons_of_pos (decide_eq_true h)

theorem responsesOn_cons_other {c : Byte} {r : Response} (h : r.rch ≠ c) (rs : List Response) :
    responsesOn c (r :: rs) = responsesOn c rs := List.filter_cons_of_neg (by simpa using h)

section
variable {s t : State}

/-- From a state with the invariant a run of words comes to its end, and keeps the parameters. -/
theorem State.Inv.observeWords_runs (h : s.Inv) (ws : List Word) :
    ∃ rs t, observeWords ws s = some (rs, t) ∧ t.params = s.params := by
  induction ws generalizing s with
  | nil => exact ⟨[], s.present [], rfl, rfl⟩
  | cons w ws ih =>
    obtain ⟨u, hu⟩ := h.runWord_next w
    obtain ⟨⟨r, hr, -⟩, hpu⟩ := runWord_resp hu
    obtain ⟨rs, t, ht, hp⟩ := ih (h.of_runWord hu)
    exact ⟨r :: rs, t, by rw [observeWords_cons_of_runWord hu hr, ht]; rfl, hp.trans hpu⟩

/-- A run answers on channel `c`, and leaves in it, what the run of the words on `c` answers and leaves. -/
theorem observeWords_wordsOn (c : Byte) (h : s.Inv) {s' : State} (ha : s.AgreeOn c s') {ws : List Word}
    {rs : List Response} (ho : observeWords ws s = some (rs, t)) :
    ∃ t', observeWords (wordsOn c ws) s' = some (responsesOn c rs, t') ∧ t.AgreeOn c t' := by
  induction ws generalizing s s' rs with
  | nil =>
    obtain ⟨rfl, rfl⟩ := Prod.mk.inj (Option.some.inj ho)
    exact ⟨s'.present [], rfl, ha.startMarker_eq, ha.registry_eq, ha.channel_eq⟩
  | cons w ws ih =>
    obtain ⟨u, hu⟩ := h.runWord_next w
    obtain ⟨⟨r, hr, hrc⟩, -⟩ := runWord_resp hu
    rw [observeWords_cons_of_runWord hu hr] at ho
    obtain ⟨⟨qs, v⟩, hq, he⟩ := Option.map_eq_some_iff.mp ho
    obtain ⟨rfl, rfl⟩ := Prod.mk.inj he
    by_cases hc : chField w = c
    · subst hc
      obtain ⟨u', hu', hr', hau⟩ := runWord_agree ha hu
      obtain ⟨t', ht', hat⟩ := ih (h.of_runWord hu) hau hq
      refine ⟨t', ?_, hat⟩
      rw [wordsOn_cons_same rfl, observeWords_cons_of_runWord hu' (hr'.trans hr), ht', responsesOn_cons_same hrc]
      rfl
    · obtain ⟨t', ht', hat⟩ := ih (h.of_runWord hu) ((runWord_other hu hc).symm.trans ha) hq
      exact ⟨t', by rwa [wordsOn_cons_other hc, responsesOn_cons_other (hrc ▸ hc)], hat⟩

end

/-- At most 256 channels are those that the 256 channel numbers name. -/
theorem channels_eq_of_channel? {s t : State} (hs : s.channels.length ≤ 256) (ht : t.channels.length ≤ 256)
    (h : ∀ c : Byte, s.channel? c = t.channel? c) : s.channels = t.channels := by
  refine List.ext_getElem? fun k => ?_
  by_cases hk : k < 256
  · simpa [State.channel?, Nat.mod_eq_of_lt hk] using h (BitVec.ofNat 8 k)
  · rw [List.getElem?_eq_none (by omega), List.getElem?_eq_none (by omega)]

/-- Settles O36: both runs project to the one run of the words on each channel. -/
theorem interleavingIsUnobservable : Obligations.InterleavingIsUnobservable := by
  unfold Obligations.InterleavingIsUnobservable
  intro s us vs h hf
  obtain ⟨ru, tu, hu, hpu⟩ := h.observeWords_runs us
  obtain ⟨rv, tv, hv, hpv⟩ := h.observeWords_runs vs
  have hsame : ∀ c, responsesOn c ru = responsesOn c rv ∧ tu.channel? c = tv.channel? c := fun c => by
    obtain ⟨u', hu', hau⟩ := observeWords_wordsOn c h (.refl c s) hu
    obtain ⟨v', hv', hav⟩ := observeWords_wordsOn c h (.refl c s) hv
    rw [show wordsOn c us = wordsOn c vs from hf c, hv'] at hu'
    obtain ⟨hr, rfl⟩ := Prod.mk.inj (Option.some.inj hu')
    exact ⟨hr.symm, hau.channel_eq.symm.trans hav.channel_eq⟩
  refine ⟨ru, rv, tu, tv, hu, hv, fun c => (hsame c).1, ?_⟩
  obtain ⟨-, hlen, -⟩ := h.params_wf
  exact channels_eq_of_channel? ((congrArg Params.numChannels hpu).trans_le hlen)
    ((congrArg Params.numChannels hpv).trans_le hlen) fun c => (hsame c).2

end Sys2Proof.Machine
end

section
/-! The command port (20_memory.md R46, R48): one step runs one word, a sequence of words is the fold over its parts, and no
step changes a parameter (R51). With them the model's own stop at the payload byte that `PB` does not have (R40, log 6). -/

namespace Sys2Proof.Machine

/-! ### One word, one step -/

section
variable {s : State} {w : Word}

theorem runWord_of_decode {i : Instr} (hd : decode w = .ok i) : runWord w s = exec i s := by
  simp only [runWord, hd]

theorem step_of_command {rest : List PortEvent} (hp : s.port = .command w :: rest) :
    step s = runWord w { s with port := rest } := by
  simp only [step, takeEvent, hp]

theorem step_present_cons (ws : List Word) : step (s.present (w :: ws)) = runWord w (s.present ws) :=
  step_of_command (present_port s (w :: ws))

/-- A word that answers no next state answers none whatever is still to come on the port. -/
theorem runWord_stops_port (h : ∀ t, runWord w s ≠ .next t) (p : List PortEvent) (t : State) :
    runWord w { s with port := p } ≠ .next t :=
  fun ht => h _ (runWord_port ht s.port)

end

/-- Settles O4. -/
theorem stepRunsTheDecodedCommand : Obligations.StepRunsTheDecodedCommand :=
  fun _ _ _ _ hp hd => (step_of_command hp).trans (runWord_of_decode hd)

/-! ### Runs compose -/

/-- A run whose first step answers no next state has no observation. -/
theorem observe_succ_of_stops {s : State} (k : Nat) (h : ∀ t, step s ≠ .next t) : observe (k + 1) s = none := by
  unfold observe
  split
  · rename_i t ht
    exact absurd ht (h t)
  · rfl
  · rfl

theorem observeWords_cons_of_stops {w : Word} {s : State} (h : ∀ t, runWord w s ≠ .next t) (ws : List Word) :
    observeWords (w :: ws) s = none :=
  observe_succ_of_stops ws.length fun t ht => runWord_stops_port h _ t ((step_present_cons ws).symm.trans ht)

/-- A run of words replaces whatever the port holds. -/
theorem observeWords_present (us vs : List Word) (s : State) :
    observeWords vs (s.present us) = observeWords vs s := rfl

/-- Settles O9, by induction on the first part: its first word answers a next state, from which the rest composes, or stops
both runs. -/
theorem sequencesCompose : Obligations.SequencesCompose := by
  unfold Obligations.SequencesCompose
  intro us vs s
  induction us generalizing s with
  | nil => simp [observeWords_present]
  | cons w us ih =>
    rw [List.cons_append]
    by_cases h : ∃ t, runWord w s = .next t
    · obtain ⟨t, ht⟩ := h
      obtain ⟨⟨r, hr, -⟩, -⟩ := runWord_resp ht
      rw [observeWords_cons_of_runWord ht hr, observeWords_cons_of_runWord ht hr, ih t]
      cases observeWords us t with
      | none => rfl
      | some p => simp [Function.comp_def]
    · rw [observeWords_cons_of_stops (not_exists.mp h), observeWords_cons_of_stops (not_exists.mp h)]
      rfl

/-! ### The parameters -/

/-- Settles O33: a step holds the state, resets every channel, or runs a word; none of them touches a parameter. -/
theorem parametersNeverChange : Obligations.ParametersNeverChange := by
  unfold Obligations.ParametersNeverChange
  intro s t h
  rcases step_next h with ⟨-, rfl⟩ | ⟨rest, -, rfl⟩ | ⟨w, rest, -, hw⟩
  · rfl
  · exact params_applyReset { s with port := rest }
  · exact (runWord_resp hw).2

/-! ### The payload byte at index 255 -/

theorem feedPayload_eq_error {b : Byte} {ch : Channel} (h : pbSize ≤ ch.cnt.toNat) :
    feedPayload b ch = .error .payloadIndex :=
  if_neg (Nat.not_lt.mpr h)

/-- Settles O28: index 255 lies outside the 255 bytes of the buffer. -/
theorem payloadIndex255Faults : Obligations.PayloadIndex255Faults := by
  unfold Obligations.PayloadIndex255Faults
  intro s c b ch hc hp hcnt
  have hsize : pbSize ≤ ch.cnt.toNat := by rw [hcnt]; decide
  have hf : feedByte s.startMarker s.registry b ch = .error .payloadIndex :=
    (feedByte_payload hp).trans (feedPayload_eq_error hsize)
  exact exec_effect_error rfl hc (channelEffect_feed_error hf)

end Sys2Proof.Machine
end

section
/-! Command words and what they encode (30_encoding.md R64 to R66, R78): the decoder and the encoder are inverse to each
other, and the decoder follows the opcode table. -/

namespace Sys2Proof

section
variable {w : Word} {i : Instr}

/-- A word is clean, with an opcode, channel and byte, exactly when its five fields say so. -/
theorem eq_mkWord_iff {op : BitVec 4} {ch data : Byte} :
    w = mkWord op ch data ↔
      opField w = op ∧ rsv1Field w = 0#4 ∧ chField w = ch ∧ rsv0Field w = 0#8 ∧ dataField w = data := by
  constructor
  · rintro rfl
    simp
  · rintro ⟨rfl, h1, rfl, h0, rfl⟩
    exact word_eq_mkWord h1 h0

/-! ### The decoder and the encoder -/

theorem decode_encode (i : Instr) : decode (encode i) = .ok i := by
  cases i <;> simp [encode, decode, decodeChannelOnly, Instr.opcode]

/-- A word that decodes as a command with a channel alone is the word of its opcode and that channel. -/
theorem decodeChannelOnly_ok {mk : Byte → Instr} (h : decodeChannelOnly w mk = .ok i) :
    i = mk (chField w) ∧ w = mkWord (opField w) (chField w) 0#8 := by
  unfold decodeChannelOnly at h
  split at h
  · rename_i hz
    obtain ⟨h1, h0, hd⟩ := hz
    exact ⟨(Except.ok.inj h).symm, eq_mkWord_iff.mpr ⟨rfl, h1, rfl, h0, hd⟩⟩
  · cases h

/-- The word of a command with a channel alone, from the opcode in numbers. -/
theorem encode_of_decodeChannelOnly {mk : Byte → Instr} {op : BitVec 4} (hmk : ∀ c, encode (mk c) = mkWord op c 0#8)
    (hop : (opField w).toNat = op.toNat) (h : decodeChannelOnly w mk = .ok i) : encode i = w := by
  obtain ⟨rfl, hw⟩ := decodeChannelOnly_ok h
  rw [hmk, ← BitVec.eq_of_toNat_eq hop]
  exact hw.symm

theorem encode_of_decode (h : decode w = .ok i) : encode i = w := by
  rcases decode_cases w with ⟨hop, e⟩ | ⟨hop, e⟩ | ⟨hop, e⟩ | ⟨hop, e⟩ | ⟨hop, e⟩ | ⟨hop, e⟩ | ⟨hop, e⟩ | ⟨-, e⟩ <;>
    rw [e] at h
  · split at h
    · rename_i hz
      obtain ⟨h1, hch, h0, hd⟩ := hz
      obtain rfl := Except.ok.inj h
      exact (eq_mkWord_iff.mpr ⟨BitVec.eq_of_toNat_eq hop, h1, hch, h0, hd⟩).symm
    · cases h
  · split at h
    · rename_i hz
      obtain ⟨h1, h0⟩ := hz
      obtain rfl := Except.ok.inj h
      exact (eq_mkWord_iff.mpr ⟨BitVec.eq_of_toNat_eq hop, h1, rfl, h0, rfl⟩).symm
    · cases h
  · exact encode_of_decodeChannelOnly (op := 0x2#4) (fun _ => rfl) hop h
  · exact encode_of_decodeChannelOnly (op := 0x3#4) (fun _ => rfl) hop h
  · exact encode_of_decodeChannelOnly (op := 0x4#4) (fun _ => rfl) hop h
  · exact encode_of_decodeChannelOnly (op := 0x5#4) (fun _ => rfl) hop h
  · exact encode_of_decodeChannelOnly (op := 0x6#4) (fun _ => rfl) hop h
  · cases h

/-- A word decodes to a command exactly when it is that command's word. -/
theorem decode_eq_ok_iff : decode w = .ok i ↔ w = encode i :=
  ⟨fun h => (encode_of_decode h).symm, fun h => h ▸ decode_encode i⟩

end

/-- Settles O1: the decoder finds the fields the encoder wrote, and a word it accepts has no other bits. -/
theorem decodeAndEncodeAgree : Obligations.DecodeAndEncodeAgree :=
  ⟨decode_encode, fun _ _ => encode_of_decode⟩

/-- Settles O2: eight of the words are those of their commands; the other two have opcode 7, and a bit in `RSV0`. -/
theorem specWordsDecode : Obligations.SpecWordsDecode :=
  ⟨decode_encode .nop, decode_encode (.feed 0#8 0xFE#8), decode_encode (.feed 1#8 0x7B#8), decode_encode (.chrst 1#8),
    decode_encode (.rdstat 0#8), decode_encode (.rdcrc 2#8), decode_encode (.rddrop 0#8), decode_encode (.rdhdr 3#8),
    rfl, rfl⟩

/-! ### The opcode table -/

/-- A mask that covers `OP`, `RSV1` and `RSV0` matches the clean words whose channel and byte are 0 where it covers them. -/
theorem and_eq_mkWord_iff {w mask : Word} {op : BitVec 4} (hop : opField mask = BitVec.allOnes 4)
    (h1 : rsv1Field mask = BitVec.allOnes 4) (h0 : rsv0Field mask = BitVec.allOnes 8) :
    w &&& mask = mkWord op 0#8 0#8 ↔
      ∃ c b, w = mkWord op c b ∧ c &&& chField mask = 0#8 ∧ b &&& dataField mask = 0#8 := by
  have hfields : opField (w &&& mask) = opField w ∧ rsv1Field (w &&& mask) = rsv1Field w ∧
      chField (w &&& mask) = chField w &&& chField mask ∧ rsv0Field (w &&& mask) = rsv0Field w ∧
      dataField (w &&& mask) = dataField w &&& dataField mask := by
    simp only [opField, rsv1Field, rsv0Field] at hop h1 h0
    simp only [opField, rsv1Field, chField, rsv0Field, dataField, BitVec.extractLsb'_and, hop, h1, h0,
      BitVec.and_allOnes, and_self]
  obtain ⟨e4, e3, e2, e1, e0⟩ := hfields
  rw [eq_mkWord_iff, e4, e3, e2, e1, e0]
  constructor
  · rintro ⟨hw, hr1, hc, hr0, hd⟩
    exact ⟨chField w, dataField w, eq_mkWord_iff.mpr ⟨hw, hr1, rfl, hr0, rfl⟩, hc, hd⟩
  · rintro ⟨c, b, rfl, hc, hb⟩
    simp [hc, hb]

/-- The NOP row: its mask leaves nothing out. -/
theorem matches_nop_row {w : Word} :
    w &&& 0xFFFFFFFF#32 = 0x00000000#32 ↔ ∃ i, decode w = .ok i ∧ i.mnemonic = "NOP" := by
  have hname : ∀ i : Instr, i.mnemonic = "NOP" ↔ i = .nop := fun i => by cases i <;> simp [Instr.mnemonic]
  have hall : w &&& 0xFFFFFFFF#32 = w := BitVec.and_allOnes
  simp only [hall, hname, exists_eq_right, decode_eq_ok_iff]
  rfl

/-- The FEED row: its mask leaves `CH` and `DATA` out. -/
theorem matches_feed_row {w : Word} :
    w &&& 0xFF00FF00#32 = 0x10000000#32 ↔ ∃ i, decode w = .ok i ∧ i.mnemonic = "FEED" := by
  have hname : ∀ i : Instr, i.mnemonic = "FEED" ↔ ∃ c b, i = .feed c b := fun i => by
    cases i <;> simp [Instr.mnemonic]
  refine (and_eq_mkWord_iff (op := 0x1#4) rfl rfl rfl).trans ?_
  simp only [hname, decode_eq_ok_iff]
  constructor
  · rintro ⟨c, b, hw, -, -⟩
    exact ⟨.feed c b, hw, c, b, rfl⟩
  · rintro ⟨_, hw, c, b, rfl⟩
    exact ⟨c, b, hw, BitVec.and_zero, BitVec.and_zero⟩

/-- A row of CHRST or of a read: its mask leaves `CH` out. -/
theorem matches_channel_row {w : Word} {op : BitVec 4} {mk : Byte → Instr} {name : String}
    (hmk : ∀ c, encode (mk c) = mkWord op c 0#8) (hname : ∀ i : Instr, i.mnemonic = name ↔ ∃ c, i = mk c) :
    w &&& 0xFF00FFFF#32 = mkWord op 0#8 0#8 ↔ ∃ i, decode w = .ok i ∧ i.mnemonic = name := by
  rw [and_eq_mkWord_iff rfl rfl rfl]
  simp only [hname, decode_eq_ok_iff]
  constructor
  · rintro ⟨c, b, rfl, -, hb⟩
    obtain rfl : b = 0#8 := BitVec.and_allOnes.symm.trans hb
    exact ⟨_, (hmk c).symm, c, rfl⟩
  · rintro ⟨_, rfl, c, rfl⟩
    exact ⟨c, 0#8, hmk c, BitVec.and_zero, BitVec.zero_and⟩

/-- Settles O3, row by row: the mask of each row covers the opcode and the fields that R66 asks to be 0. -/
theorem decodeFollowsOpcodeTable : Obligations.DecodeFollowsOpcodeTable := by
  unfold Obligations.DecodeFollowsOpcodeTable opcodeTable
  simp only [List.forall_mem_cons, List.not_mem_nil, IsEmpty.forall_iff, implies_true, and_true]
  refine ⟨fun w => matches_nop_row, fun w => matches_feed_row,
    fun w => matches_channel_row (op := 0x2#4) (mk := .chrst) (fun _ => rfl) fun i => ?_,
    fun w => matches_channel_row (op := 0x3#4) (mk := .rdstat) (fun _ => rfl) fun i => ?_,
    fun w => matches_channel_row (op := 0x4#4) (mk := .rdcrc) (fun _ => rfl) fun i => ?_,
    fun w => matches_channel_row (op := 0x5#4) (mk := .rddrop) (fun _ => rfl) fun i => ?_,
    fun w => matches_channel_row (op := 0x6#4) (mk := .rdhdr) (fun _ => rfl) fun i => ?_⟩
  all_goals cases i <;> simp [Instr.mnemonic]

end Sys2Proof
end

section
/-! The words that the status reads answer (30_encoding.md R72 to R75). -/

namespace Sys2Proof.Machine

/-! ### The status words, field by field -/

theorem statWord_fields (ch : Channel) :
    (statWord ch).extractLsb' 0 4 = ch.phase ∧ (statWord ch).getLsbD 4 = ch.dfound ∧
    (statWord ch).getLsbD 5 = ch.lenok ∧ (statWord ch).extractLsb' 6 2 = 0#2 ∧
    (statWord ch).extractLsb' 8 8 = ch.cnt ∧ (statWord ch).extractLsb' 16 8 = ch.len ∧
    (statWord ch).extractLsb' 24 8 = ch.msgid := by
  simp only [statWord, flagBit, BitVec.extractLsb'_append_eq_ite, BitVec.getLsbD_append]
  simp

theorem crcWord_fields (ch : Channel) :
    (crcWord ch).extractLsb' 0 16 = ch.crc ∧ (crcWord ch).extractLsb' 16 8 = ch.cklo ∧
    (crcWord ch).extractLsb' 24 8 = ch.xtra := by
  simp only [crcWord, BitVec.extractLsb'_append_eq_ite]
  simp

theorem hdrWord_fields (ch : Channel) :
    (hdrWord ch).extractLsb' 0 8 = ch.seq ∧ (hdrWord ch).extractLsb' 8 8 = ch.sys ∧
    (hdrWord ch).extractLsb' 16 8 = ch.comp ∧ (hdrWord ch).extractLsb' 24 8 = 0#8 := by
  simp only [hdrWord, BitVec.extractLsb'_append_eq_ite]
  simp

/-! ### The reads -/

/-- Settles O13: the read answers the RDSTAT word. -/
theorem rdstatReadsPhaseAndLength : Obligations.RdstatReadsPhaseAndLength :=
  fun _ _ ch h => ⟨statWord ch, exec_read rfl h rfl, statWord_fields ch⟩

/-- Settles O14: the read answers the RDCRC word. -/
theorem rdcrcReadsChecksumState : Obligations.RdcrcReadsChecksumState :=
  fun _ _ ch h => ⟨crcWord ch, exec_read rfl h rfl, crcWord_fields ch⟩

/-- Settles O16: the read answers the RDHDR word. -/
theorem rdhdrReadsHeader : Obligations.RdhdrReadsHeader :=
  fun _ _ ch h => ⟨hdrWord ch, exec_read rfl h rfl, hdrWord_fields ch⟩

/-- Settles O15: the RDDROP word is `DROPS` itself. -/
theorem rddropReadsDrops : Obligations.RddropReadsDrops :=
  fun _ _ _ h => exec_read rfl h rfl

end Sys2Proof.Machine
end

section
/-! Well-formed frames (30_encoding.md R60 to R62): every frame the block emits is one (40_feed.md R112), the reference
encoder's bytes are one, and a channel in IDLE emits each one that it is fed, whatever noise came before (R117). -/

namespace Sys2Proof.Machine

/-! ### Emitted frames -/

section
variable {m : Byte} {reg : Registry} {b : Byte} {ch ch' : Channel} {f : Frame}

/-- A byte that completes a frame is taken in GOT_CHECKSUM_HIGH, and is valid there. -/
theorem feedByte_frameReady (h : feedByte m reg b ch = .ok (ch', .frameReady f)) :
    ch.phase = 8#4 ∧ validFrame ch b = true ∧ f = frameOf m b ch := by
  rcases feedByte_ok h with ⟨-, -, ⟨⟩, -⟩ | ⟨-, -, ⟨⟩, -⟩ | ⟨-, ⟨⟩, -⟩ | ⟨-, ⟨⟩, -⟩ | ⟨-, ⟨⟩, -⟩ | ⟨-, ⟨⟩, -⟩ |
      ⟨-, -, ⟨⟩, -⟩ | ⟨-, -, ⟨⟩, -⟩ | ⟨-, -, -, ⟨⟩, -⟩ | ⟨-, -, -, ⟨⟩, -⟩ | ⟨-, ⟨⟩, -⟩ | ⟨hp, hv, ho, -⟩ |
      ⟨-, -, ⟨⟩, -⟩
  exact ⟨hp, hv, ParseOutcome.frameReady.inj ho⟩

/-- The frame of a channel that meets the invariant and takes a valid CKSUM_HIGH is well formed: the latch holds the
registry's descriptor, whose length is `LEN`, and `CRC` is the checksum of the fields with that descriptor's extra. -/
theorem Channel.Inv.frameOf_wellFormed (h : ch.Inv reg) (hp : ch.phase = 8#4) (hv : validFrame ch b = true) :
    (frameOf m b ch).wellFormed m reg = true := by
  obtain ⟨hfound, hlenok, hck⟩ := validFrame_iff.mp hv
  have hcrc := h.reachableFacts.checksum_crc (.inr hp)
  rw [if_pos hfound] at hcrc
  have hlatch := h.latch_resolved (by simp [hp])
  rw [hfound, hlenok] at hlatch
  rw [Frame.wellFormed_iff]
  cases hd : registryLookup reg ch.msgid with
  | none => simp [hd, latchOf] at hlatch
  | some d =>
    simp only [hd, latchOf, Prod.mk.injEq, true_and] at hlatch
    obtain ⟨hx, hlen⟩ := hlatch
    exact ⟨rfl, d, hd, of_decide_eq_true hlen.symm, hck.trans (hx ▸ hcrc)⟩

end

section
variable {s t : State} {r : Response} {f : Frame}

theorem ofOutcome_frame {c : Byte} {o : ParseOutcome} (h : (Response.ofOutcome c o).frame = some f) :
    o = .frameReady f := by
  cases o with
  | frameReady g => exact congrArg ParseOutcome.frameReady (Option.some.inj h)
  | _ => cases h

theorem frame_of_emit {q : Response} (h : (.next (s.emit q) : Host.Outcome State Fault Refusal) = .next t)
    (hr : t.resp = some r) (hf : r.frame = some f) : q.frame = some f := by
  obtain rfl := Host.Outcome.next.inj h
  obtain rfl := Option.some.inj hr
  exact hf

/-- A command whose response holds a frame is a FEED that completes it. -/
theorem exec_frame_response {i : Instr} (h : exec i s = .next t) (hr : t.resp = some r) (hf : r.frame = some f) :
    ∃ c b ch ch', s.channel? c = some ch ∧ feedByte s.startMarker s.registry b ch = .ok (ch', .frameReady f) := by
  rcases exec_cases i s with ⟨-, e⟩ | ⟨c, -, -, e⟩ | ⟨c, ch, d, -, -, -, e⟩ | ⟨c, ch, -, -, e⟩ |
      ⟨c, b, ch, ch', o, -, hc, hb, e⟩ | ⟨c, b, ch, e', -, -, -, e⟩ <;> rw [e] at h
  · cases frame_of_emit h hr hf
  · cases frame_of_emit h hr hf
  · cases frame_of_emit h hr hf
  · cases frame_of_emit h hr hf
  · exact ⟨c, b, ch, ch', hc, ofOutcome_frame (frame_of_emit h hr hf) ▸ hb⟩
  · cases h

/-- A step whose response holds a frame is a FEED that completes it. -/
theorem step_frame_response (h : step s = .next t) (hr : t.resp = some r) (hf : r.frame = some f) :
    ∃ c b ch ch', s.channel? c = some ch ∧ feedByte s.startMarker s.registry b ch = .ok (ch', .frameReady f) := by
  rcases step_cases s with ⟨-, e⟩ | ⟨rest, -, e⟩ | ⟨w, rest, i, -, -, e⟩ | ⟨w, rest, d, -, -, e⟩ <;> rw [e] at h
  · obtain rfl := Host.Outcome.next.inj h
    cases hr
  · obtain rfl := Host.Outcome.next.inj h
    cases hr
  · exact exec_frame_response (s := { s with port := rest }) h hr hf
  · cases frame_of_emit h hr hf

end

/-- Settles O43: only a FEED in GOT_CHECKSUM_HIGH emits a frame, and there the invariant makes it well formed. -/
theorem emittedFramesAreWellFormed : Obligations.EmittedFramesAreWellFormed := by
  unfold Obligations.EmittedFramesAreWellFormed
  intro s t r f hinv h hr hf
  obtain ⟨c, b, ch, ch', hc, hb⟩ := step_frame_response h hr hf
  obtain ⟨hp, hv, rfl⟩ := feedByte_frameReady hb
  exact ⟨(hinv.channel hc).frameOf_wellFormed hp hv, Memory.take_length _ _⟩

/-! ### The reference encoder -/

/-- A checksum is put together again from its two bytes. -/
theorem checksum_of_bytes (k : Crc) : k.extractLsb' 8 8 ++ k.extractLsb' 0 8 = k :=
  (BitVec.extractLsb'_append_extractLsb'_eq_extractLsb' rfl).trans BitVec.extractLsb'_eq_self

/-- The reference encoder's bytes are laid out as the frame of its operands and their checksum. -/
theorem layoutFrame_wireBytes (marker len seq sys comp mid x : Byte) {payload : List Byte}
    (h : payload.length = len.toNat) :
    layoutFrame (wireBytes marker len seq sys comp mid payload x) =
      some ⟨marker, len, seq, sys, comp, mid, payload, frameCrc len seq sys comp mid payload x⟩ := by
  rw [wireBytes, layoutFrame_mk _ _ _ _ _ _ _ _ h, checksum_of_bytes]

/-- Settles O44: the encoder's frame has the marker, the registered length and its own checksum. -/
theorem wireBytesAreWellFormed : Obligations.WireBytesAreWellFormed := by
  unfold Obligations.WireBytesAreWellFormed
  intro marker len seq sys comp mid x payload reg hl hd
  refine ⟨?_, ?_⟩
  · simp only [wireBytes, List.length_append, List.length_cons, List.length_nil, hl]
    omega
  · rw [wellFormedFrame_eq (layoutFrame_wireBytes marker len seq sys comp mid x hl), Frame.wellFormed_iff]
    exact ⟨rfl, ⟨len, x⟩, hd, rfl, rfl⟩

/-! ### Resynchronization -/

/-- A channel in IDLE discards bytes that are not the start marker (40_feed.md R102). -/
theorem feedAll_noise {m : Byte} {reg : Registry} {ch : Channel} {bs : List Byte} (hp : ch.phase = 0#4) (hm : m ∉ bs) :
    feedAll m reg bs ch = .ok (ch, List.replicate bs.length .incomplete) := by
  induction bs with
  | nil => rfl
  | cons b bs ih =>
    obtain ⟨hb, hbs⟩ := not_or.mp (List.mem_cons.not.mp hm)
    have hskip : feedByte m reg b ch = .ok (ch, .incomplete) := by
      rw [feedByte_idle hp, feedIdle, if_neg (Ne.symm hb)]
    exact feedAll_cons hskip (ih hbs)

/-- Settles O45: a frame fed to a channel in IDLE ends in its outcome, which is the frame when it is well formed; noise
leaves the channel as it was. -/
theorem resynchronizationGuarantee : Obligations.ResynchronizationGuarantee := by
  unfold Obligations.ResynchronizationGuarantee
  refine ⟨fun s c ch bs f hc hp hw hl => ?_, fun s c ch noise hc hp hm => ?_⟩
  · rw [wellFormedFrame_eq hl] at hw
    obtain ⟨hm, -⟩ := Frame.wellFormed_iff.mp hw
    obtain ⟨t, ch', hobs, hch, hidle, hdrops⟩ := observeFeeds_frame hc hp hl hm
    rw [frameOutcome, if_pos hw] at hobs
    rw [dropsAfter, if_pos hw] at hdrops
    exact ⟨t, ch', hobs, hch, hidle, hdrops⟩
  · obtain ⟨t, hobs, hch, -⟩ := observeFeeds_eq hc (feedAll_noise (reg := s.registry) hp hm)
    rw [List.map_replicate] at hobs
    exact ⟨t, hobs, hch.trans (congrArg State.channels (setChannel_self hc))⟩

end Sys2Proof.Machine
end

section
/-! The assembler (30_encoding.md R76, R77): the word of each mnemonic as a number, and what the pseudo-instructions expand
to. -/

namespace Sys2Proof.Machine

/-! ### Command words as numbers -/

/-- Joining two bit strings, in numbers. -/
theorem toNat_append_eq_add {n k : Nat} (a : BitVec n) (b : BitVec k) :
    (a ++ b).toNat = a.toNat * 2 ^ k + b.toNat := by
  rw [BitVec.toNat_append, ← Nat.shiftLeft_add_eq_or_of_lt b.isLt, Nat.shiftLeft_eq]

theorem mkWord_toNat (op : BitVec 4) (ch data : Byte) :
    (mkWord op ch data).toNat = op.toNat * 2 ^ 28 + ch.toNat * 2 ^ 16 + data.toNat := by
  simp only [mkWord, toNat_append_eq_add, BitVec.toNat_ofNat]
  omega

/-- The word of an opcode and two numbers that fit 8 bits. -/
theorem mkWord_ofNat (op : BitVec 4) {c b : Nat} (hc : c < 256) (hb : b < 256) :
    mkWord op (BitVec.ofNat 8 c) (BitVec.ofNat 8 b) = BitVec.ofNat 32 (op.toNat * 2 ^ 28 + c * 2 ^ 16 + b) := by
  have hop := op.isLt
  refine BitVec.eq_of_toNat_eq ?_
  simp only [mkWord_toNat, BitVec.toNat_ofNat]
  omega

/-! ### Operands -/

theorem asmByte_of_lt {n : Nat} (h : n < 256) : asmByte n = some (BitVec.ofNat 8 n) := if_pos h

theorem asmByte_of_not_lt {n : Nat} (h : ¬ n < 256) : asmByte n = none := if_neg h

@[simp] theorem asmByte_toNat (b : Byte) : asmByte b.toNat = some b := by
  rw [asmByte_of_lt b.isLt, BitVec.ofNat_toNat, BitVec.setWidth_eq]

@[simp] theorem asmBytes_toNat (bs : List Byte) : asmBytes (bs.map BitVec.toNat) = some bs := by
  induction bs with
  | nil => rfl
  | cons b bs ih => simp only [List.map_cons, asmBytes, asmByte_toNat, ih]

@[simp] theorem asmItems_toNat (items : List (Byte × Nat)) :
    asmItems (items.map fun p => (p.1.toNat, p.2)) = some (items.flatMap fun p => List.replicate p.2 p.1) := by
  induction items with
  | nil => rfl
  | cons p items ih => simp only [List.map_cons, asmItems, asmByte_toNat, ih, List.flatMap_cons]

/-! ### The words of each mnemonic -/

/-- The words of a mnemonic whose one operand is a channel. -/
theorem asmChannel_words {op : BitVec 4} {mk : Byte → Instr} (hmk : ∀ c, encode (mk c) = mkWord op c 0#8) (ch : Nat) :
    (asmChannel ch mk).map (fun is => is.map encode) =
      if ch < 256 then some [BitVec.ofNat 32 (op.toNat * 2 ^ 28 + ch * 2 ^ 16)] else none := by
  by_cases h : ch < 256
  · have hw : encode (mk (BitVec.ofNat 8 ch)) = _ := (hmk _).trans (mkWord_ofNat op h (b := 0) (by decide))
    simp [asmChannel, asmByte_of_lt h, hw, h]
  · simp [asmChannel, asmByte_of_not_lt h, h]

theorem feed_words (marker : Byte) (ch b : Nat) :
    (AsmLine.feed ch b).words marker =
      if ch < 256 ∧ b < 256 then some [BitVec.ofNat 32 (0x1 * 2 ^ 28 + ch * 2 ^ 16 + b)] else none := by
  by_cases hc : ch < 256
  · by_cases hb : b < 256
    · have hw : encode (.feed (BitVec.ofNat 8 ch) (BitVec.ofNat 8 b)) = _ := mkWord_ofNat 0x1#4 hc hb
      simp [AsmLine.words, AsmLine.assemble, asmByte_of_lt hc, asmByte_of_lt hb, hw, hc, hb]
    · simp [AsmLine.words, AsmLine.assemble, asmByte_of_not_lt hb, hb]
  · simp [AsmLine.words, AsmLine.assemble, asmByte_of_not_lt hc, hc]

/-- Settles O50: NOP has no operand, FEED has two, and the other mnemonics are one case. -/
theorem assemblerWordsAndRanges : Obligations.AssemblerWordsAndRanges := by
  unfold Obligations.AssemblerWordsAndRanges
  intro marker ch b
  exact ⟨rfl, feed_words marker ch b, asmChannel_words (op := 0x2#4) (fun _ => rfl) ch,
    asmChannel_words (op := 0x3#4) (fun _ => rfl) ch, asmChannel_words (op := 0x4#4) (fun _ => rfl) ch,
    asmChannel_words (op := 0x5#4) (fun _ => rfl) ch, asmChannel_words (op := 0x6#4) (fun _ => rfl) ch⟩

/-! ### The pseudo-instructions -/

theorem feeds_assemble (marker c : Byte) (items : List (Byte × Nat)) :
    (AsmLine.feeds c.toNat (items.map fun p => (p.1.toNat, p.2))).assemble marker =
      some (expandFeeds c (items.flatMap fun p => List.replicate p.2 p.1)) := by
  simp only [AsmLine.assemble, asmByte_toNat, asmItems_toNat]

theorem feedframe_assemble (marker c len seq sys comp mid x : Byte) (payload : List Byte) :
    (AsmLine.feedframe c.toNat len.toNat seq.toNat sys.toNat comp.toNat mid.toNat (payload.map BitVec.toNat)
      x.toNat).assemble marker =
      if payload.length = len.toNat then some (expandFeeds c (wireBytes marker len seq sys comp mid payload x))
      else none := by
  have hops := asmBytes_toNat [len, seq, sys, comp, mid, x]
  simp only [List.map_cons, List.map_nil] at hops
  simp only [AsmLine.assemble, asmByte_toNat, asmBytes_toNat, hops]

/-- Settles O51: each operand is taken as its own byte, and the bytes become one FEED each. -/
theorem pseudoInstructionsExpand : Obligations.PseudoInstructionsExpand :=
  ⟨feeds_assemble, feedframe_assemble⟩

end Sys2Proof.Machine
end

section
/-! FEED phase by phase (40_feed.md R101 to R113): what each kind of byte leaves of its channel and what it answers, that
every legal phase answers, and that the start marker is compared in IDLE alone (R116). -/

namespace Sys2Proof.Machine

section
variable {m : Byte} {reg : Registry} {b : Byte} {ch ch' : Channel} {o : ParseOutcome}

theorem feedByte_idle_marker (hp : ch.phase = 0#4) (hb : b = m) :
    feedByte m reg b ch = .ok ({ ch with crc := crcInit, phase := 1#4 }, .incomplete) :=
  (feedByte_idle hp).trans (if_pos hb)

theorem feedByte_idle_other (hp : ch.phase = 0#4) (hb : b ≠ m) : feedByte m reg b ch = .ok (ch, .incomplete) :=
  (feedByte_idle hp).trans (if_neg hb)

theorem feedByte_checksumHigh_valid (hp : ch.phase = 8#4) (hv : validFrame ch b = true) :
    feedByte m reg b ch = .ok (clearFrame ch, .frameReady (frameOf m b ch)) :=
  (feedByte_checksumHigh hp).trans (if_pos hv)

theorem feedByte_checksumHigh_invalid (hp : ch.phase = 8#4) (hv : ¬ validFrame ch b = true) :
    feedByte m reg b ch = .ok (clearFrame { ch with drops := satInc ch.drops }, .frameRejected) :=
  (feedByte_checksumHigh hp).trans (if_neg hv)

/-- An index other than 255 is one of the 255 bytes of a payload buffer. -/
theorem cnt_lt_pbSize (h : ch.cnt ≠ 255#8) : ch.cnt.toNat < pbSize := by
  have hne : ch.cnt.toNat ≠ 255 := fun e => h (BitVec.eq_of_toNat_eq e)
  have := ch.cnt.isLt
  unfold pbSize
  omega

theorem feedByte_payload_store (hp : ch.phase = 6#4) (hc : ch.cnt.toNat < pbSize) :
    feedByte m reg b ch = .ok (payloadAdvance (payloadStore b ch), .incomplete) :=
  (feedByte_payload hp).trans (if_pos hc)

theorem payloadAdvance_last (hl : ch.cnt.toNat + 1 = ch.len.toNat) :
    payloadAdvance ch = { absorbExtra ch with cnt := 0#8, phase := 7#4 } := if_pos hl

theorem payloadAdvance_more (hl : ch.cnt.toNat + 1 ≠ ch.len.toNat) :
    payloadAdvance ch = { ch with cnt := ch.cnt + 1#8 } := if_neg hl

@[simp] theorem payloadAdvance_pb (ch : Channel) : (payloadAdvance ch).pb = ch.pb := by
  unfold payloadAdvance; split <;> simp

/-- The advance writes `PHASE`, `CRC` and `CNT` alone. -/
theorem payloadAdvance_eq (ch : Channel) :
    payloadAdvance ch =
      { ch with
        phase := (payloadAdvance ch).phase, crc := (payloadAdvance ch).crc, cnt := (payloadAdvance ch).cnt } := by
  unfold payloadAdvance
  split
  · rw [absorbExtra_eq]
  · rfl

end

/-- Settles O20: the start marker begins a frame, and after any other byte the channel stored back is
the one that was there. -/
theorem feedInIdle : Obligations.FeedInIdle := by
  unfold Obligations.FeedInIdle
  intro s c b ch hc hp
  refine ⟨fun hb => exec_feed_ok hc (feedByte_idle_marker hp hb), fun hb => ?_⟩
  rw [exec_feed_ok hc (feedByte_idle_other hp hb), setChannel_self hc]
  rfl

/-- Settles O21: one transition for each of the four phases. -/
theorem feedHeaderBytes : Obligations.FeedHeaderBytes :=
  fun _ _ _ _ hc => ⟨fun hp => exec_feed_ok hc (feedByte_length hp), fun hp => exec_feed_ok hc (feedByte_sequence hp),
    fun hp => exec_feed_ok hc (feedByte_systemId hp), fun hp => exec_feed_ok hc (feedByte_componentId hp)⟩

/-- Settles O24: the transition of GOT_CHECKSUM_LOW. -/
theorem feedChecksumLowByte : Obligations.FeedChecksumLowByte :=
  fun _ _ _ _ hc hp => exec_feed_ok hc (feedByte_checksumLow hp)

/-- What MSG_ID latches: the registry's entry for the id, or nothing (10_state.md R28). -/
theorem takeMessageId_latch (reg : Registry) (b : Byte) (ch : Channel) :
    (∀ d, registryLookup reg b = some d →
      (takeMessageId reg b ch).dfound = true ∧ (takeMessageId reg b ch).xtra = d.crcExtra ∧
        ((takeMessageId reg b ch).lenok = true ↔ d.payloadLength = ch.len)) ∧
    (registryLookup reg b = none →
      (takeMessageId reg b ch).dfound = false ∧ (takeMessageId reg b ch).xtra = 0#8 ∧
        (takeMessageId reg b ch).lenok = false) := by
  refine ⟨fun d hd => ?_, fun hd => ?_⟩ <;> simp [hd, latchOf]

/-- Settles O22, by whether `LEN` is 0: either way MSG_ID is taken and the descriptor latched, and only the phase that
follows and what it absorbs or counts differ. -/
theorem feedMessageIdLatches : Obligations.FeedMessageIdLatches := by
  unfold Obligations.FeedMessageIdLatches
  intro s c b ch hc hp
  obtain ⟨hsome, hnone⟩ := takeMessageId_latch s.registry b ch
  by_cases hl : ch.len = 0#8
  · refine ⟨_, exec_feed_ok hc (feedByte_messageId_empty hp hl), ?_⟩
    simp only [absorbExtra_msgid, absorbExtra_dfound, absorbExtra_xtra, absorbExtra_lenok]
    refine ⟨rfl, hsome, hnone, fun _ => ⟨by simp, by simp, absorbExtra_crc _⟩, fun h => absurd hl h, ?_⟩
    simp
  · exact ⟨_, exec_feed_ok hc (feedByte_messageId_payload hp hl), rfl, hsome, hnone, fun h => absurd h hl,
      fun _ => ⟨rfl, rfl, rfl⟩, rfl, rfl, rfl, rfl, rfl, rfl, rfl⟩

/-- Settles O23: the byte is stored and absorbed, and the advance ends the payload or counts. -/
theorem feedPayloadByte : Obligations.FeedPayloadByte := by
  unfold Obligations.FeedPayloadByte
  intro s c b ch hc hp h255
  have hlt := cnt_lt_pbSize h255
  refine ⟨_, exec_feed_ok hc (feedByte_payload_store hp hlt), fun a => ?_, fun hl => ?_, fun hl => ?_, ?_⟩
  · rw [payloadAdvance_pb, payloadStore_pb, Memory.read_write]
  · rw [payloadAdvance_last (by exact hl)]
    exact ⟨rfl, rfl, absorbExtra_crc _⟩
  · rw [payloadAdvance_more (by exact hl)]
    refine ⟨hp, ?_, rfl⟩
    unfold pbSize at hlt
    exact BitVec.toNat_add_of_lt (by simp only [payloadStore_cnt, BitVec.toNat_ofNat]; omega)
  · rw [payloadAdvance_pb]
    exact payloadAdvance_eq (payloadStore b ch)

/-- Settles O25: the conditions are those of `validFrame`, and the payload is the first `LEN` bytes of the buffer. -/
theorem feedAcceptsValidFrame : Obligations.FeedAcceptsValidFrame :=
  fun _ _ _ ch hc hp hfound hlenok hck =>
    ⟨ch.pb.take ch.len.toNat, Memory.take_length _ _, fun _ hi => Memory.take_getElem? _ hi,
      exec_feed_ok hc (feedByte_checksumHigh_valid hp (validFrame_iff.mpr ⟨hfound, hlenok, hck⟩))⟩

/-- Settles O26: without the conditions of `validFrame` the channel counts a rejection and is cleared. -/
theorem feedRejectsInvalidFrame : Obligations.FeedRejectsInvalidFrame :=
  fun _ _ _ ch hc hp hv =>
    ⟨satInc ch.drops, satInc_toNat _,
      exec_feed_ok hc (feedByte_checksumHigh_invalid hp fun h => hv (validFrame_iff.mp h))⟩

/-! ### Every legal phase answers -/

section
variable {m : Byte} {reg : Registry} {b : Byte} {ch ch' : Channel} {o : ParseOutcome}

/-- A byte is taken in every used phase in which the payload buffer has the byte at index `CNT`. -/
theorem feedByte_takes (m : Byte) (reg : Registry) (b : Byte) (hp : ch.phase.toNat ≤ 8)
    (hc : ch.phase = 6#4 → ch.cnt.toNat < pbSize) : ∃ ch' o, feedByte m reg b ch = .ok (ch', o) := by
  cases hf : feedByte m reg b ch with
  | ok p => exact ⟨p.1, p.2, rfl⟩
  | error e =>
    rcases feedByte_error hf with ⟨h9, -⟩ | ⟨h6, h255, -⟩
    · omega
    · exact absurd (hc h6) (Nat.not_lt.mpr h255)

/-- The response of a byte taken is one of three kinds, with `RDATA` 0. -/
theorem ofOutcome_answers (c : Byte) (o : ParseOutcome) :
    (Response.ofOutcome c o).rdata = 0#32 ∧
      ((Response.ofOutcome c o).kind = .ok ∨ (Response.ofOutcome c o).kind = .frameReady ∨
        (Response.ofOutcome c o).kind = .frameRejected) := by
  cases o with
  | incomplete => exact ⟨rfl, .inl rfl⟩
  | frameReady f => exact ⟨rfl, .inr (.inl rfl)⟩
  | frameRejected => exact ⟨rfl, .inr (.inr rfl)⟩

/-! ### The start marker outside IDLE -/

/-- An outcome as a block with the start marker `m` answers it. -/
def ParseOutcome.withMarker (m : Byte) (o : ParseOutcome) : ParseOutcome :=
  match o with
  | .incomplete => .incomplete
  | .frameReady f => .frameReady { f with startMarker := m }
  | .frameRejected => .frameRejected

theorem ofOutcome_withMarker (c m : Byte) (o : ParseOutcome) :
    Response.ofOutcome c (o.withMarker m) =
      { Response.ofOutcome c o with
        frame := (Response.ofOutcome c o).frame.map fun f => { f with startMarker := m } } := by
  cases o <;> rfl

/-- Between IDLE and GOT_CHECKSUM_HIGH no transition reads the start marker. -/
theorem feedByte_marker_unread (h0 : ch.phase ≠ 0#4) (h8 : ch.phase ≠ 8#4) (m m' : Byte) :
    feedByte m' reg b ch = feedByte m reg b ch := by
  rcases phaseOf_cases ch.phase with ⟨p, hp, hv⟩ | ⟨-, hv⟩
  · cases p
    case idle => exact absurd hp h0
    case gotChecksumHigh => exact absurd hp h8
    all_goals simp only [feedByte, hv]
  · simp only [feedByte, hv]

/-- Outside IDLE a byte is taken the same with any start marker, which appears in an emitted frame alone. -/
theorem feedByte_withMarker (h0 : ch.phase ≠ 0#4) (hf : feedByte m reg b ch = .ok (ch', o)) (m' : Byte) :
    feedByte m' reg b ch = .ok (ch', o.withMarker m') := by
  by_cases h8 : ch.phase = 8#4
  · by_cases hv : validFrame ch b = true
    · obtain ⟨rfl, rfl⟩ := Prod.mk.inj (Except.ok.inj ((feedByte_checksumHigh_valid h8 hv).symm.trans hf))
      exact feedByte_checksumHigh_valid h8 hv
    · obtain ⟨rfl, rfl⟩ := Prod.mk.inj (Except.ok.inj ((feedByte_checksumHigh_invalid h8 hv).symm.trans hf))
      exact feedByte_checksumHigh_invalid h8 hv
  · rw [feedByte_marker_unread h0 h8 m m', hf]
    cases o with
    | frameReady f => exact absurd (feedByte_frameReady hf).1 h8
    | _ => rfl

end

/-- Settles O29: the byte is taken, and each outcome has its response. -/
theorem feedCompletes : Obligations.FeedCompletes := by
  unfold Obligations.FeedCompletes
  intro s c b ch hc hp h255
  obtain ⟨ch', o, hf⟩ := feedByte_takes s.startMarker s.registry b hp fun h6 => cnt_lt_pbSize (h255 h6)
  obtain ⟨hdata, hkind⟩ := ofOutcome_answers c o
  exact ⟨_, _, exec_feed_ok hc hf, rfl, ofOutcome_rch c o, hdata, hkind⟩

/-- Settles O31: outside IDLE the channel takes the byte the same, and the outcome differs in the frame's marker alone. -/
theorem noRescan : Obligations.NoRescan := by
  unfold Obligations.NoRescan
  intro s t c b m ch hc h0 h
  obtain ⟨ch', r, he, rfl⟩ := exec_next_effect rfl hc h
  obtain ⟨o, hf, rfl⟩ := channelEffect_feed he
  rw [exec_feed_ok (s := { s with startMarker := m }) hc (feedByte_withMarker h0 hf m), ofOutcome_withMarker]
  rfl

end Sys2Proof.Machine
end

section
/-! Candidate frames that are not well formed (40_feed.md R113 to R115), and how soon any candidate frame is over (R118). -/

namespace Sys2Proof.Machine

/-! ### Rejection -/

/-- Settles O46: a candidate fed to a channel in IDLE ends in its outcome, which is a counted rejection when it is not well
formed, whatever the cause. -/
theorem illFormedCandidateIsRejected : Obligations.IllFormedCandidateIsRejected := by
  unfold Obligations.IllFormedCandidateIsRejected
  intro s c ch bs f hc hp hl hm hbad
  rw [wellFormedFrame_eq hl] at hbad
  obtain ⟨t, ch', hobs, hch, hidle, hdrops⟩ := observeFeeds_frame hc hp hl hm
  rw [frameOutcome, hbad] at hobs
  rw [dropsAfter, hbad] at hdrops
  exact ⟨t, ch', hobs, hch, hidle, (congrArg BitVec.toNat hdrops).trans (satInc_toNat _)⟩

/-! ### How many bytes a candidate frame still takes -/

/-- How many bytes the candidate frame of a channel still takes, `next` being the first of them: that byte matters in
GOT_LENGTH alone, where it is LEN. -/
def Channel.bytesLeft (ch : Channel) (next : Byte) : Nat :=
  match phaseOf ch.phase with
  | some .idle => 0
  | some .gotLength => 7 + next.toNat
  | some .gotSequence => 6 + ch.len.toNat
  | some .gotSystemId => 5 + ch.len.toNat
  | some .gotComponentId => 4 + ch.len.toNat
  | some .gotMessageId => 3 + ch.len.toNat
  | some .inPayload => 2 + (ch.len.toNat - ch.cnt.toNat)
  | some .gotChecksumLow => 2
  | some .gotChecksumHigh => 1
  | none => 0

/-- A channel in a used phase which, in IN_PAYLOAD, still has a payload byte to come. -/
structure Channel.Framing (ch : Channel) : Prop where
  phase_legal : ch.phase.toNat ≤ 8
  cnt_below : ch.phase = 6#4 → ch.cnt.toNat < ch.len.toNat

/-- The bytes `bs` are the rest of the candidate frame of a channel. -/
structure Channel.RestOfFrame (ch : Channel) (bs : List Byte) : Prop where
  framing : ch.Framing
  length_eq : bs.length = ch.bytesLeft (bs.headD 0#8)

section
variable {m : Byte} {reg : Registry} {b next : Byte} {as bs : List Byte} {ch ch' : Channel} {o : ParseOutcome}

theorem Channel.Inv.framing (h : ch.Inv reg) : ch.Framing where
  phase_legal := h.phase_legal
  cnt_below hp := h.cnt_below (by simp [hp])

theorem bytesLeft_idle (hp : ch.phase = 0#4) : ch.bytesLeft next = 0 := by
  simp [Channel.bytesLeft, hp, phaseOf]

theorem bytesLeft_gotLength (hp : ch.phase = 1#4) : ch.bytesLeft next = 7 + next.toNat := by
  simp [Channel.bytesLeft, hp, phaseOf]

/-- Outside IDLE a candidate frame takes at least one byte more, and at most the 262 that follow START. -/
theorem bytesLeft_bounds (hp : ch.phase.toNat ≤ 8) (h0 : ch.phase ≠ 0#4) :
    0 < ch.bytesLeft next ∧ ch.bytesLeft next ≤ 262 := by
  have hlen := ch.len.isLt
  have hnext := next.isLt
  rcases phaseOf_cases ch.phase with ⟨p, hv, hq⟩ | ⟨h9, -⟩
  · cases p <;> simp only [Channel.bytesLeft, hq]
    case idle => exact absurd hv h0
    all_goals omega
  · omega

/-- A byte taken outside IDLE is one byte of the candidate frame, and has an outcome exactly when it is the last. -/
theorem Channel.Framing.bytesLeft_after_byte (h : ch.Framing) (h0 : ch.phase ≠ 0#4)
    (hf : feedByte m reg b ch = .ok (ch', o)) :
    ch.bytesLeft b = ch'.bytesLeft next + 1 ∧ (o = .incomplete ↔ ch'.bytesLeft next ≠ 0) := by
  rcases feedByte_ok hf with ⟨hp, -⟩ | ⟨hp, -⟩ | ⟨hp, rfl, rfl⟩ | ⟨hp, rfl, rfl⟩ | ⟨hp, rfl, rfl⟩ | ⟨hp, rfl, rfl⟩ |
      ⟨hp, hl, rfl, rfl⟩ | ⟨hp, -, rfl, rfl⟩ | ⟨hp, -, hl, rfl, rfl⟩ | ⟨hp, -, hl, rfl, rfl⟩ | ⟨hp, rfl, rfl⟩ |
      ⟨hp, -, rfl, rfl⟩ | ⟨hp, -, rfl, rfl⟩
  · exact absurd hp h0
  · exact absurd hp h0
  all_goals simp [Channel.bytesLeft, hp, phaseOf]
  · omega
  · omega
  · omega
  · omega
  · simp [hl]
  · omega
  · omega
  · have := h.cnt_below hp
    omega

theorem Channel.Framing.takes_byte (h : ch.Framing) (m : Byte) (reg : Registry) (b : Byte) :
    ∃ ch' o, feedByte m reg b ch = .ok (ch', o) :=
  feedByte_takes m reg b h.phase_legal fun hp => by
    have := h.cnt_below hp
    have := ch.len.isLt
    unfold pbSize
    omega

/-- Framing goes on after every byte: MSG_ID leads into the payload only when `LEN` is not 0, and a payload byte leaves
the payload when it is the last. -/
theorem Channel.Framing.after_byte (h : ch.Framing) (hf : feedByte m reg b ch = .ok (ch', o)) : ch'.Framing := by
  rcases feedByte_ok hf with ⟨hp, -, -, rfl⟩ | ⟨hp, -, -, rfl⟩ | ⟨hp, -, rfl⟩ | ⟨hp, -, rfl⟩ | ⟨hp, -, rfl⟩ |
      ⟨hp, -, rfl⟩ | ⟨hp, -, -, rfl⟩ | ⟨hp, hl, -, rfl⟩ | ⟨hp, -, -, -, rfl⟩ | ⟨hp, -, hl, -, rfl⟩ | ⟨hp, -, rfl⟩ |
      ⟨hp, -, -, rfl⟩ | ⟨hp, -, -, rfl⟩ <;> refine ⟨by simp [hp], ?_⟩ <;> simp [hp]
  · exact Nat.pos_of_ne_zero fun e => hl (BitVec.eq_of_toNat_eq e)
  · have := h.cnt_below hp
    omega

theorem Channel.RestOfFrame.ne_idle (h : ch.RestOfFrame bs) (hbs : bs ≠ []) : ch.phase ≠ 0#4 := fun hp =>
  hbs (List.eq_nil_of_length_eq_zero (h.length_eq.trans (bytesLeft_idle hp)))

/-- The first part of the rest of a frame is taken without an outcome, and leaves the second part. -/
theorem Channel.RestOfFrame.feedAll_part (h : ch.RestOfFrame (as ++ bs)) (hbs : bs ≠ []) :
    ∃ ch', feedAll m reg as ch = .ok (ch', List.replicate as.length .incomplete) ∧ ch'.RestOfFrame bs := by
  induction as generalizing ch with
  | nil => exact ⟨ch, rfl, h⟩
  | cons a as ih =>
    have h0 := h.ne_idle (List.cons_ne_nil a (as ++ bs))
    obtain ⟨hframing, hlen⟩ := h
    obtain ⟨ch₁, o, hf⟩ := hframing.takes_byte m reg a
    obtain ⟨hleft, ho⟩ := hframing.bytesLeft_after_byte (next := (as ++ bs).headD 0#8) h0 hf
    have hrest : (as ++ bs).length = ch₁.bytesLeft ((as ++ bs).headD 0#8) :=
      Nat.succ.inj (hlen.trans hleft)
    obtain rfl : o = .incomplete := ho.mpr (by rw [← hrest]; simp [hbs])
    obtain ⟨ch', hfeed, hch'⟩ := ih ⟨hframing.after_byte hf, hrest⟩
    exact ⟨ch', feedAll_cons hf hfeed, hch'⟩

/-- The last byte of a frame has an outcome and leads to IDLE. -/
theorem Channel.RestOfFrame.last_byte (h : ch.RestOfFrame [b]) :
    ∃ ch' o, feedByte m reg b ch = .ok (ch', o) ∧ o ≠ .incomplete ∧ ch'.phase = 0#4 := by
  have h0 := h.ne_idle (List.cons_ne_nil b [])
  obtain ⟨hframing, hlen⟩ := h
  obtain ⟨ch', o, hf⟩ := hframing.takes_byte m reg b
  obtain ⟨hleft, ho⟩ := hframing.bytesLeft_after_byte (next := 0#8) h0 hf
  have hnone : ch'.bytesLeft 0#8 = 0 := (Nat.succ.inj (hlen.trans hleft)).symm
  refine ⟨ch', o, hf, fun hi => ho.mp hi hnone, ?_⟩
  by_contra hp
  obtain ⟨hpos, -⟩ := bytesLeft_bounds (next := 0#8) (hframing.after_byte hf).phase_legal hp
  omega

/-- The rest of a frame is taken, with one outcome, at its last byte, and leads to IDLE. -/
theorem Channel.RestOfFrame.feedAll_whole (h : ch.RestOfFrame (as ++ [b])) :
    ∃ ch' o, feedAll m reg (as ++ [b]) ch = .ok (ch', List.replicate as.length .incomplete ++ [o]) ∧
      o ≠ .incomplete ∧ ch'.phase = 0#4 := by
  obtain ⟨ch₁, hfeed, hlast⟩ := h.feedAll_part (m := m) (reg := reg) (List.cons_ne_nil b [])
  obtain ⟨ch', o, hf, ho, hidle⟩ := hlast.last_byte (m := m) (reg := reg)
  exact ⟨ch', o, feedAll_append hfeed (feedAll_cons hf rfl), ho, hidle⟩

/-- From GOT_LENGTH the rest of a frame is LEN and `6 + LEN` bytes more. -/
theorem restOfFrame_gotLength {l : Byte} (hp : ch.phase = 1#4) (hl : bs.length = 6 + l.toNat) :
    ch.RestOfFrame (l :: bs) where
  framing := ⟨by simp [hp], by simp [hp]⟩
  length_eq := by rw [bytesLeft_gotLength hp, List.length_cons, List.headD_cons, hl]; omega

/-- The rest of the frame of a channel that is not in IDLE is a first part of any 262 bytes. -/
theorem Channel.Framing.exists_restOfFrame (h : ch.Framing) (h0 : ch.phase ≠ 0#4) (hbs : bs.length = 262) :
    ∃ k, k ≤ 262 ∧ bs.take k ≠ [] ∧ ch.RestOfFrame (bs.take k) := by
  obtain ⟨hpos, hle⟩ := bytesLeft_bounds (next := bs.headD 0#8) h.phase_legal h0
  generalize hn : ch.bytesLeft (bs.headD 0#8) = n at hpos hle
  have hlen : (bs.take n).length = n := by rw [List.length_take]; omega
  have hhead : (bs.take n).headD 0#8 = bs.headD 0#8 := by
    simp [List.headD_eq_head?_getD, List.head?_take, Nat.ne_of_gt hpos]
  exact ⟨n, hle, List.length_pos_iff.mp (by omega), h, by rw [hlen, hhead, hn]⟩

/-- A byte that brings a channel back to IDLE has an outcome. -/
theorem feedByte_to_idle (h0 : ch.phase ≠ 0#4) (hf : feedByte m reg b ch = .ok (ch', o)) (hidle : ch'.phase = 0#4) :
    o ≠ .incomplete := by
  rintro rfl
  rcases feedByte_ok hf with ⟨hp, -⟩ | ⟨hp, -⟩ | ⟨hp, -, rfl⟩ | ⟨hp, -, rfl⟩ | ⟨hp, -, rfl⟩ | ⟨hp, -, rfl⟩ |
      ⟨hp, -, -, rfl⟩ | ⟨hp, -, -, rfl⟩ | ⟨hp, -, -, -, rfl⟩ | ⟨hp, -, -, -, rfl⟩ | ⟨hp, -, rfl⟩ | ⟨-, -, ⟨⟩, -⟩ |
      ⟨-, -, ⟨⟩, -⟩
  · exact h0 hp
  · exact h0 hp
  all_goals simp [hp] at hidle

end

/-! ### What a host sees -/

section
variable {s t : State} {c b : Byte} {as bs : List Byte} {ch ch' : Channel} {o : ParseOutcome}

/-- An outcome other than Incomplete is answered FRAME_READY or FRAME_REJECTED. -/
theorem ofOutcome_kind (ho : o ≠ .incomplete) :
    (Response.ofOutcome c o).kind = .frameReady ∨ (Response.ofOutcome c o).kind = .frameRejected := by
  cases o with
  | incomplete => exact absurd rfl ho
  | frameReady f => exact .inl rfl
  | frameRejected => exact .inr rfl

/-- What a host sees of a stream fed to channel `c`, and the channel after it. -/
theorem observeFeeds_channel {os : List ParseOutcome} (hc : s.channel? c = some ch)
    (h : feedAll s.startMarker s.registry bs ch = .ok (ch', os)) :
    ∃ t, observeFeeds c bs s = some (os.map (Response.ofOutcome c), t) ∧ t.channel? c = some ch' := by
  obtain ⟨t, hobs, hch, -⟩ := observeFeeds_eq hc h
  have hset : t.channels = (s.setChannel c ch').channels := hch
  exact ⟨t, hobs, by rw [State.channel?, hset]; exact channel?_setChannel_same ch' hc⟩

/-- What a host sees of the rest of a frame. -/
theorem observeFeeds_restOfFrame (hc : s.channel? c = some ch) (h : ch.RestOfFrame bs) (hbs : bs ≠ []) :
    ∃ (t : State) (ch' : Channel) (o : ParseOutcome),
      observeFeeds c bs s = some (List.replicate (bs.length - 1) (Response.done c) ++ [Response.ofOutcome c o], t) ∧
      o ≠ .incomplete ∧ t.channel? c = some ch' ∧ ch'.phase = 0#4 := by
  obtain ⟨as, b, rfl⟩ := (List.eq_nil_or_concat' bs).resolve_left hbs
  obtain ⟨ch', o, hfeed, ho, hidle⟩ := h.feedAll_whole (m := s.startMarker) (reg := s.registry)
  obtain ⟨t, hobs, hch⟩ := observeFeeds_channel hc hfeed
  refine ⟨t, ch', o, ?_, ho, hch, hidle⟩
  rw [hobs, List.map_append, List.map_replicate, List.length_append, List.length_singleton, Nat.add_sub_cancel]
  rfl

/-- While bytes of a frame are still to come, its channel is not in IDLE. -/
theorem observeFeeds_part {rs : List Response} (hc : s.channel? c = some ch) (h : ch.RestOfFrame (as ++ bs))
    (hbs : bs ≠ []) (hobs : observeFeeds c as s = some (rs, t)) (hch : t.channel? c = some ch') : ch'.phase ≠ 0#4 := by
  obtain ⟨ch₁, hfeed, hrest⟩ := h.feedAll_part (m := s.startMarker) (reg := s.registry) hbs
  obtain ⟨t₁, hobs₁, hch₁⟩ := observeFeeds_channel hc hfeed
  obtain ⟨-, rfl⟩ := Prod.mk.inj (Option.some.inj (hobs₁.symm.trans hobs))
  obtain rfl := Option.some.inj (hch₁.symm.trans hch)
  exact hrest.ne_idle hbs

/-- A command that brings channel `k` back to IDLE is a CHRST of it, or a FEED that answers an outcome on it. -/
theorem exec_to_idle {i : Instr} {k : Nat} (h : exec i s = .next t) (hc : s.channels[k]? = some ch)
    (hc' : t.channels[k]? = some ch') (h0 : ch.phase ≠ 0#4) (hidle : ch'.phase = 0#4) :
    (∃ c, i = .chrst c ∧ c.toNat = k) ∨
      ∃ r, t.resp = some r ∧ (r.kind = .frameReady ∨ r.kind = .frameRejected) ∧ r.rch.toNat = k := by
  by_cases hi : ∃ c, i.channel? = some c ∧ c.toNat = k
  · obtain ⟨c, hi, rfl⟩ := hi
    obtain ⟨ch₁, r, he, rfl⟩ := exec_next_effect hi hc h
    obtain rfl : ch₁ = ch' := Option.some.inj ((channel?_setChannel_same ch₁ hc).symm.trans hc')
    rcases channelEffect_ok he with ⟨_, _, rfl, -⟩ | ⟨d, rfl, -⟩ | ⟨d, b, o, rfl, hf, rfl⟩
    · exact absurd hidle h0
    · obtain rfl : d = c := Option.some.inj hi
      exact .inl ⟨d, rfl, rfl⟩
    · obtain rfl : d = c := Option.some.inj hi
      exact .inr ⟨_, rfl, ofOutcome_kind (feedByte_to_idle h0 hf hidle), congrArg BitVec.toNat (ofOutcome_rch d o)⟩
  · obtain ⟨-, -, hother⟩ := exec_frame h
    rw [hother k fun c hd e => hi ⟨c, hd, e⟩, hc] at hc'
    exact absurd (Option.some.inj hc' ▸ hidle) h0

/-- A step that brings channel `k` back to IDLE is a reset, a CHRST of it, or a FEED that answers an outcome on it. -/
theorem step_to_idle {k : Nat} (h : step s = .next t) (hc : s.channels[k]? = some ch) (hc' : t.channels[k]? = some ch')
    (h0 : ch.phase ≠ 0#4) (hidle : ch'.phase = 0#4) :
    s.port.head? = some .reset ∨
    (∃ w c, s.port.head? = some (.command w) ∧ decode w = .ok (.chrst c) ∧ c.toNat = k) ∨
    (∃ r, t.resp = some r ∧ (r.kind = .frameReady ∨ r.kind = .frameRejected) ∧ r.rch.toNat = k) := by
  have hkept : t.channels ≠ s.channels := fun e =>
    h0 (Option.some.inj ((e ▸ hc').symm.trans hc) ▸ hidle)
  rcases step_cases s with ⟨-, e⟩ | ⟨rest, hp, -⟩ | ⟨w, rest, i, hp, hd, e⟩ | ⟨w, rest, d, -, -, e⟩
  · obtain rfl := Host.Outcome.next.inj (e.symm.trans h)
    exact absurd rfl hkept
  · exact .inl (by rw [hp]; rfl)
  · rcases exec_to_idle (e.symm.trans h) hc hc' h0 hidle with ⟨c, rfl, hk⟩ | hr
    · exact .inr (.inl ⟨w, c, by rw [hp]; rfl, hd, hk⟩)
    · exact .inr (.inr hr)
  · obtain rfl := Host.Outcome.next.inj (e.symm.trans h)
    exact absurd rfl hkept

end

/-- Settles O48: from GOT_LENGTH the rest of the frame is known by LEN, from a good state it has at most 262 bytes, and it
is taken without leaving the frame before its last byte, which leads to IDLE with an outcome. -/
theorem recoveryBound : Obligations.RecoveryBound := by
  unfold Obligations.RecoveryBound
  refine ⟨fun s c l ch bs hc hp hl => ?_, fun s c ch bs hinv hc hbs => ?_,
    fun _ _ _ _ _ hs hc hc' h0 hidle => step_to_idle hs hc hc' h0 hidle⟩
  · have hrest := restOfFrame_gotLength hp hl
    refine ⟨?_, fun k rs u ch' hk hobs hch => ?_⟩
    · obtain ⟨t, ch', o, hobs, ho, hch, hidle⟩ := observeFeeds_restOfFrame hc hrest (List.cons_ne_nil l bs)
      rw [List.length_cons, Nat.add_sub_cancel, hl] at hobs
      exact ⟨t, ch', _, hobs, ofOutcome_kind ho, ofOutcome_rch c o, hch, hidle⟩
    · rw [← List.take_append_drop k (l :: bs)] at hrest
      refine observeFeeds_part hc hrest (fun hnil => ?_) hobs hch
      rw [List.drop_eq_nil_iff, List.length_cons] at hnil
      omega
  · by_cases h0 : ch.phase = 0#4
    · exact ⟨0, [], s.present [], ch, Nat.zero_le _, rfl, hc, h0⟩
    · obtain ⟨k, hk, hne, hrest⟩ := (hinv.channel hc).framing.exists_restOfFrame h0 hbs
      obtain ⟨t, ch', o, hobs, -, hch, hidle⟩ := observeFeeds_restOfFrame hc hrest hne
      exact ⟨k, _, t, ch', hk, hobs, hch, hidle⟩

end Sys2Proof.Machine
end

section
/-! NOP (41_channel_control.md R130): what a word of opcode 0 decodes to, and what it answers. -/

namespace Sys2Proof

section
variable {w : Word}

/-- A word is its opcode and the bits 27:0 below it (30_encoding.md R64). -/
theorem opField_append_rest (w : Word) : opField w ++ w.extractLsb' 0 28 = w := by
  unfold opField
  exact (BitVec.extractLsb'_append_extractLsb'_eq_extractLsb' rfl).trans BitVec.extractLsb'_eq_self

/-- A word of opcode 0 is NOP exactly when its bits 27:0 are 0. -/
theorem decode_eq_nop_iff (hop : opField w = 0#4) : decode w = .ok .nop ↔ w.extractLsb' 0 28 = 0#28 := by
  rw [decode_eq_ok_iff]
  constructor
  · rintro rfl
    rfl
  · intro hlow
    rw [← opField_append_rest w, hop, hlow]
    rfl

/-- A word of opcode 0 that is not NOP has a nonzero reserved field. -/
theorem decode_of_ne_nop (hop : opField w = 0#4) (h : decode w ≠ .ok .nop) : decode w = .error .reservedField := by
  unfold decode at h ⊢
  rw [hop] at h ⊢
  exact if_neg fun hz => h (if_pos hz)

end

end Sys2Proof

namespace Sys2Proof.Machine

theorem runWord_of_decode_error {s : State} {w : Word} {e : DecodeError} (hd : decode w = .error e) :
    runWord w s = raiseCmdError (cmdErrorOf e) (chField w) s := by
  simp only [runWord, hd]

/-- Settles O10: a word of opcode 0 runs NOP when its bits 27:0 are 0, and raises RESERVED_FIELD when they are not. -/
theorem nopAnswersOk : Obligations.NopAnswersOk := by
  unfold Obligations.NopAnswersOk
  refine ⟨fun s => exec_unnamed rfl, fun s w rest hp hop => ?_⟩
  rw [step_of_command hp]
  split
  · rename_i hlow
    exact (runWord_of_decode ((decode_eq_nop_iff hop).mpr hlow)).trans (exec_unnamed rfl)
  · rename_i hlow
    exact runWord_of_decode_error (decode_of_ne_nop hop (mt (decode_eq_nop_iff hop).mp hlow))

end Sys2Proof.Machine
end

section
/-! Command errors (60_exceptions.md R162 to R164): which words the decoder rejects and with which error, and what every
word answers (30_encoding.md R69, R70). With them the commands' side effects (20_memory.md R47) and the unused phases (R166). -/

namespace Sys2Proof.Machine

/-! ### The words the decoder rejects -/

section
variable {w : Word} {i : Instr}

/-- Bits 15:0 of a word are 0 exactly when `RSV0` and `DATA` are (30_encoding.md R64). -/
theorem low16_eq_zero_iff : w.extractLsb' 0 16 = 0#16 ↔ rsv0Field w = 0#8 ∧ dataField w = 0#8 := by
  have happend : rsv0Field w ++ dataField w = w.extractLsb' 0 16 :=
    BitVec.extractLsb'_append_extractLsb'_eq_extractLsb' rfl
  rw [← happend]
  constructor
  · intro h
    exact ⟨BitVec.extractLsb'_append_eq_left.symm.trans (congrArg (BitVec.extractLsb' 8 8) h),
      BitVec.extractLsb'_append_eq_right.symm.trans (congrArg (BitVec.extractLsb' 0 8) h)⟩
  · rintro ⟨h0, hd⟩
    rw [h0, hd]
    rfl

/-- A field that must be 0 under the word's opcode is not (30_encoding.md R66, 60_exceptions.md R162). -/
def ReservedBitSet (w : Word) : Prop :=
  ((opField w).toNat = 0 ∧ w.extractLsb' 0 28 ≠ 0#28) ∨
  ((opField w).toNat = 1 ∧ (rsv1Field w ≠ 0#4 ∨ rsv0Field w ≠ 0#8)) ∨
  (2 ≤ (opField w).toNat ∧ (opField w).toNat ≤ 6 ∧ (rsv1Field w ≠ 0#4 ∨ w.extractLsb' 0 16 ≠ 0#16))

theorem reservedBitSet_nop (hop : (opField w).toNat = 0) : ReservedBitSet w ↔ w.extractLsb' 0 28 ≠ 0#28 := by
  simp [ReservedBitSet, hop]

theorem reservedBitSet_feed (hop : (opField w).toNat = 1) :
    ReservedBitSet w ↔ ¬ (rsv1Field w = 0#4 ∧ rsv0Field w = 0#8) := by
  simp [ReservedBitSet, hop, or_iff_not_imp_left]

theorem reservedBitSet_channelOnly (h2 : 2 ≤ (opField w).toNat) (h6 : (opField w).toNat ≤ 6) :
    ReservedBitSet w ↔ ¬ (rsv1Field w = 0#4 ∧ rsv0Field w = 0#8 ∧ dataField w = 0#8) := by
  have h0 : (opField w).toNat ≠ 0 := by omega
  have h1 : (opField w).toNat ≠ 1 := by omega
  simp only [ReservedBitSet, h0, h1, h2, h6, false_and, false_or, true_and, ne_eq, low16_eq_zero_iff]
  exact not_and_or.symm

theorem opField_le_of_reservedBitSet (h : ReservedBitSet w) : (opField w).toNat ≤ 6 := by
  rcases h with ⟨hop, -⟩ | ⟨hop, -⟩ | ⟨-, h6, -⟩ <;> omega

theorem decode_illegalOpcode (h7 : 7 ≤ (opField w).toNat) : decode w = .error .illegalOpcode := by
  rcases decode_cases w with ⟨hop, -⟩ | ⟨hop, -⟩ | ⟨hop, -⟩ | ⟨hop, -⟩ | ⟨hop, -⟩ | ⟨hop, -⟩ | ⟨hop, -⟩ | ⟨-, e⟩
  · omega
  · omega
  · omega
  · omega
  · omega
  · omega
  · omega
  · exact e

/-- A word of a legal opcode decodes unless one of its reserved bits is set. -/
theorem decode_legalOpcode (h6 : (opField w).toNat ≤ 6) :
    (ReservedBitSet w ∧ decode w = .error .reservedField) ∨ (¬ ReservedBitSet w ∧ ∃ i, decode w = .ok i) := by
  have honly : ∀ mk : Byte → Instr, 2 ≤ (opField w).toNat → decode w = decodeChannelOnly w mk →
      (ReservedBitSet w ∧ decode w = .error .reservedField) ∨ (¬ ReservedBitSet w ∧ ∃ i, decode w = .ok i) := by
    intro mk h2 e
    rw [reservedBitSet_channelOnly h2 h6, e, decodeChannelOnly]
    split <;> simp [*]
  rcases decode_cases w with ⟨hop, e⟩ | ⟨hop, e⟩ | ⟨hop, e⟩ | ⟨hop, e⟩ | ⟨hop, e⟩ | ⟨hop, e⟩ | ⟨hop, e⟩ | ⟨h7, -⟩
  · have hop0 : opField w = 0#4 := BitVec.eq_of_toNat_eq hop
    rw [reservedBitSet_nop hop, ne_eq, ← decode_eq_nop_iff hop0, not_not]
    by_cases hnop : decode w = .ok .nop
    · exact .inr ⟨hnop, _, hnop⟩
    · exact .inl ⟨hnop, decode_of_ne_nop hop0 hnop⟩
  · rw [reservedBitSet_feed hop, e]
    split <;> simp [*]
  · exact honly _ (by omega) e
  · exact honly _ (by omega) e
  · exact honly _ (by omega) e
  · exact honly _ (by omega) e
  · exact honly _ (by omega) e
  · omega

theorem opField_of_decode (hd : decode w = .ok i) : opField w = i.opcode := by
  obtain rfl := decode_eq_ok_iff.mp hd
  cases i <;> exact opField_mkWord _ _ _

/-- Every command but NOP names the channel number in its word's `CH` field. -/
theorem channel?_of_decode (hd : decode w = .ok i) (h1 : 1 ≤ (opField w).toNat) : i.channel? = some (chField w) := by
  have hch := decode_channel hd
  rw [opField_of_decode hd] at h1
  cases i
  case nop => exact absurd h1 (by decide)
  all_goals exact congrArg some hch

end

/-- Settles O5: a legal opcode without a reserved bit decodes, so BAD_CHANNEL comes last. -/
theorem commandErrorsInPriority : Obligations.CommandErrorsInPriority := by
  unfold Obligations.CommandErrorsInPriority
  intro s w rest hp op ch reserved
  rw [step_of_command hp]
  refine ⟨fun h7 => runWord_of_decode_error (decode_illegalOpcode h7), fun hr => ?_, fun h1 h6 hr hc => ?_⟩
  · rcases decode_legalOpcode (opField_le_of_reservedBitSet hr) with ⟨-, hd⟩ | ⟨hn, -⟩
    · exact runWord_of_decode_error hd
    · exact absurd hr hn
  · rcases decode_legalOpcode h6 with ⟨hn, -⟩ | ⟨-, i, hd⟩
    · exact absurd hn hr
    · exact (runWord_of_decode hd).trans (exec_badChannel (channel?_of_decode hd h1) (channel?_eq_none.mpr hc))

/-! ### What a word answers -/

section
variable {i : Instr} {w : Word} {s t : State}

/-- A read word belongs to a command of opcode 3 to 6. -/
theorem opcode_of_readWord {ch : Channel} {d : Word} (h : readWord i ch = some d) :
    3 ≤ i.opcode.toNat ∧ i.opcode.toNat ≤ 6 := by
  cases i
  case nop => cases h
  case feed => cases h
  case chrst => cases h
  all_goals simp [Instr.opcode]

/-- Every response of a command: BAD_CHANNEL, which comes alone; OK, with data only for a read; or the outcome of a FEED. -/
theorem exec_answers (h : exec i s = .next t) : ∃ r, t.resp = some r ∧
    ((∃ c, i.channel? = some c ∧ s.channel? c = none ∧ t = s.emit r ∧ r = Response.error c .badChannel) ∨
     (∃ c d, r = Response.okData c d ∧ (d ≠ 0#32 → 3 ≤ i.opcode.toNat ∧ i.opcode.toNat ≤ 6)) ∨
     (∃ c b o, i = .feed c b ∧ r = Response.ofOutcome c o)) := by
  rcases exec_cases i s with ⟨-, e⟩ | ⟨c, hi, hc, e⟩ | ⟨c, ch, d, -, -, hd, e⟩ | ⟨c, ch, -, -, e⟩ |
      ⟨c, b, ch, ch', o, hi, -, -, e⟩ | ⟨c, b, ch, f, -, -, -, e⟩ <;> rw [e] at h
  · obtain rfl := Host.Outcome.next.inj h
    exact ⟨_, rfl, .inr (.inl ⟨0#8, 0#32, rfl, fun hne => absurd rfl hne⟩)⟩
  · obtain rfl := Host.Outcome.next.inj h
    exact ⟨_, rfl, .inl ⟨c, hi, hc, rfl, rfl⟩⟩
  · obtain rfl := Host.Outcome.next.inj h
    exact ⟨_, rfl, .inr (.inl ⟨c, d, rfl, fun _ => opcode_of_readWord hd⟩)⟩
  · obtain rfl := Host.Outcome.next.inj h
    exact ⟨_, rfl, .inr (.inl ⟨c, 0#32, rfl, fun hne => absurd rfl hne⟩)⟩
  · obtain rfl := Host.Outcome.next.inj h
    exact ⟨_, rfl, .inr (.inr ⟨c, b, o, hi, rfl⟩)⟩
  · cases h

/-- A word raises the error of its encoding, or runs its command. -/
theorem runWord_cases (h : runWord w s = .next t) :
    (∃ e, decode w = .error e ∧ t = s.emit (Response.error (chField w) (cmdErrorOf e))) ∨
    (∃ i, decode w = .ok i ∧ exec i s = .next t) := by
  cases hd : decode w with
  | error e => exact .inl ⟨e, rfl, (Host.Outcome.next.inj ((runWord_of_decode_error hd).symm.trans h)).symm⟩
  | ok i => exact .inr ⟨i, rfl, (runWord_of_decode hd).symm.trans h⟩

theorem runWord_keeps_port (h : runWord w s = .next t) : t.port = s.port := by
  rcases runWord_next h with ⟨r, rfl, -⟩ | ⟨i, ch, ch', r, -, -, -, rfl⟩ <;> rfl

theorem ofOutcome_frame_isSome (c : Byte) (o : ParseOutcome) :
    (Response.ofOutcome c o).frame.isSome = true ↔ (Response.ofOutcome c o).kind = .frameReady := by
  cases o <;> simp [Response.ofOutcome, Response.done, Response.okData, Response.ready, Response.rejected]

end

/-- Settles O6, by the responses a word can have: only a read's data word and an accepted frame are not empty. -/
theorem everyCommandAnswersOnce : Obligations.EveryCommandAnswersOnce := by
  unfold Obligations.EveryCommandAnswersOnce
  intro s t w rest hp h
  rw [step_of_command hp] at h
  obtain ⟨⟨r, hr, hrch⟩, -⟩ := runWord_resp h
  refine ⟨runWord_keeps_port h, r, hr, hrch, ?_⟩
  rcases runWord_cases h with ⟨e, -, rfl⟩ | ⟨i, hd, hx⟩
  · obtain rfl := Option.some.inj hr
    exact ⟨⟨nofun, nofun⟩, fun hne => absurd rfl hne⟩
  · have hop : w.extractLsb' 28 4 = i.opcode := opField_of_decode hd
    rw [hop]
    obtain ⟨r', hr', hcases⟩ := exec_answers hx
    obtain rfl := Option.some.inj (hr'.symm.trans hr)
    rcases hcases with ⟨c, -, -, -, rfl⟩ | ⟨c, d, rfl, hdata⟩ | ⟨c, b, o, -, rfl⟩
    · exact ⟨⟨nofun, nofun⟩, fun hne => absurd rfl hne⟩
    · exact ⟨⟨nofun, nofun⟩, fun hne => ⟨rfl, hdata hne⟩⟩
    · exact ⟨ofOutcome_frame_isSome c o, fun hne => absurd (ofOutcome_answers c o).1 hne⟩

/-- Settles O7, by the responses a word can have. -/
theorem responseKindsAndCodes : Obligations.ResponseKindsAndCodes := by
  unfold Obligations.ResponseKindsAndCodes
  refine ⟨rfl, rfl, rfl, rfl, fun s t w rest r hp h hr => ?_⟩
  rw [step_of_command hp] at h
  rcases runWord_cases h with ⟨e, hd, rfl⟩ | ⟨i, hd, hx⟩
  · obtain rfl := Option.some.inj hr
    refine .inr (.inr (.inr ⟨rfl, ?_⟩))
    cases e with
    | illegalOpcode => exact .inl ⟨rfl, hd⟩
    | reservedField => exact .inr (.inl ⟨rfl, hd⟩)
  · obtain ⟨r', hr', hcases⟩ := exec_answers hx
    obtain rfl := Option.some.inj (hr'.symm.trans hr)
    rcases hcases with ⟨c, hi, hc, -, rfl⟩ | ⟨c, d, rfl, -⟩ | ⟨c, b, o, rfl, rfl⟩
    · exact .inr (.inr (.inr ⟨rfl, .inr (.inr ⟨rfl, i, c, hd, hi, channel?_eq_none.mp hc⟩)⟩))
    · exact .inl ⟨rfl, rfl, i, hd⟩
    · cases o with
      | incomplete => exact .inl ⟨rfl, rfl, _, hd⟩
      | frameReady f => exact .inr (.inl ⟨rfl, rfl, c, b, hd⟩)
      | frameRejected => exact .inr (.inr (.inl ⟨rfl, rfl, c, b, hd⟩))

/-! ### Side effects -/

section
variable {i : Instr} {c : Byte} {s t : State}

/-- No command reads the last response. -/
theorem exec_emit (i : Instr) (s : State) (r : Response) : exec i (s.emit r) = exec i s := by
  refine (exec_port i s s.port (some r)).trans ?_
  cases h : exec i s with
  | next t =>
    obtain ⟨-, hport, -⟩ := exec_frame h
    exact congrArg (fun p => Host.Outcome.next { t with port := p }) hport.symm
  | fault e => rfl
  | refused e => rfl

theorem readChannel_next {f : Channel → Word} (h : readChannel c f s = .next t) : ∃ r, t = s.emit r := by
  rcases readChannel_cases c f s with ⟨ch, -, e⟩ | ⟨-, e⟩
  · exact ⟨_, Host.Outcome.next.inj (h.symm.trans e)⟩
  · exact ⟨_, Host.Outcome.next.inj (h.symm.trans e)⟩

/-- NOP and the reads change the response alone. -/
theorem exec_only_emits (hi : i = .nop ∨ ∃ c, i = .rdstat c ∨ i = .rdcrc c ∨ i = .rddrop c ∨ i = .rdhdr c)
    (h : exec i s = .next t) : ∃ r, t = s.emit r := by
  rcases hi with rfl | ⟨c, rfl | rfl | rfl | rfl⟩
  · exact ⟨_, (Host.Outcome.next.inj h).symm⟩
  · exact readChannel_next h
  · exact readChannel_next h
  · exact readChannel_next h
  · exact readChannel_next h

theorem setChannel_setChannel (s : State) (c : Byte) (ch ch' : Channel) :
    (s.setChannel c ch).setChannel c ch' = s.setChannel c ch' := by
  simp [State.setChannel, List.set_set]

theorem clearFrame_clearFrame (ch : Channel) : clearFrame (clearFrame ch) = clearFrame ch := rfl

/-- CHRST again answers the same and leaves the same state. -/
theorem exec_chrst_again (h : exec (.chrst c) s = .next t) : exec (.chrst c) t = .next t := by
  cases hc : s.channel? c with
  | none =>
    have e := exec_badChannel (i := .chrst c) rfl hc
    obtain rfl := Host.Outcome.next.inj (e.symm.trans h)
    exact (exec_emit _ s _).trans e
  | some ch =>
    obtain rfl := Host.Outcome.next.inj ((exec_chrst hc).symm.trans h)
    rw [exec_emit, exec_chrst (channel?_setChannel_same _ hc), setChannel_setChannel, clearFrame_clearFrame]

end

/-- A word that answers CMD_ERROR changes the response alone. -/
theorem runWord_cmdError {w : Word} {s t : State} {r : Response} (h : runWord w s = .next t) (hr : t.resp = some r)
    (hk : r.kind = .cmdError) : t = s.emit r := by
  rcases runWord_cases h with ⟨e, -, rfl⟩ | ⟨i, -, hx⟩
  · obtain rfl := Option.some.inj hr
    rfl
  · obtain ⟨r', hr', hcases⟩ := exec_answers hx
    obtain rfl := Option.some.inj (hr'.symm.trans hr)
    rcases hcases with ⟨c, -, -, ht, -⟩ | ⟨c, d, rfl, -⟩ | ⟨c, b, o, -, rfl⟩
    · exact ht
    · cases hk
    · cases o <;> cases hk

/-- Settles O18. The FEED that is not idempotent delivers the start marker from reset: once, it begins a frame; twice, it
is that frame's LEN. -/
theorem sideEffectsAndIdempotency : Obligations.SideEffectsAndIdempotency := by
  unfold Obligations.SideEffectsAndIdempotency
  refine ⟨fun s t i hi h => ?_, fun s t c h => exec_chrst_again h,
    ⟨State.reset, _, _, 0#8, 0xFE#8, rfl, rfl, by decide⟩, fun s t w rest r hp h hr hk => ?_⟩
  · obtain ⟨r, rfl⟩ := exec_only_emits hi h
    exact ⟨rfl, (exec_emit i s r).trans h⟩
  · rw [step_of_command hp] at h
    obtain rfl := runWord_cmdError h hr hk
    exact ⟨rfl, rfl⟩

/-! ### The unused phases -/

/-- A byte that is taken leaves its channel in a used phase (10_state.md R21). -/
theorem feedByte_phase_legal {m : Byte} {reg : Registry} {b : Byte} {ch ch' : Channel} {o : ParseOutcome}
    (h : feedByte m reg b ch = .ok (ch', o)) : ch'.phase.toNat ≤ 8 := by
  rcases feedByte_ok h with ⟨hp, -, -, rfl⟩ | ⟨hp, -, -, rfl⟩ | ⟨hp, -, rfl⟩ | ⟨hp, -, rfl⟩ | ⟨hp, -, rfl⟩ |
      ⟨hp, -, rfl⟩ | ⟨hp, -, -, rfl⟩ | ⟨hp, -, -, rfl⟩ | ⟨hp, -, -, -, rfl⟩ | ⟨hp, -, -, -, rfl⟩ | ⟨hp, -, rfl⟩ |
      ⟨hp, -, -, rfl⟩ | ⟨hp, -, -, rfl⟩ <;> simp [hp]

/-- A command leaves its channel as it was, or in a used phase. -/
theorem channelEffect_phase {m : Byte} {reg : Registry} {i : Instr} {ch ch' : Channel} {r : Response}
    (h : channelEffect m reg i ch = .ok (ch', r)) : ch' = ch ∨ ch'.phase.toNat ≤ 8 := by
  rcases channelEffect_ok h with ⟨c, d, rfl, -⟩ | ⟨c, -, rfl, -⟩ | ⟨c, b, o, -, hf, -⟩
  · exact .inl rfl
  · exact .inr (Nat.zero_le 8)
  · exact .inr (feedByte_phase_legal hf)

/-- A channel in an unused phase after a word was the same channel before it. -/
theorem runWord_unused_phase {w : Word} {s t : State} {k : Nat} {ch' : Channel} (h : runWord w s = .next t)
    (hc' : t.channels[k]? = some ch') (h9 : 9 ≤ ch'.phase.toNat) : s.channels[k]? = some ch' := by
  rcases runWord_next h with ⟨r, rfl, -⟩ | ⟨i, ch, ch₁, r, hc, he, -, rfl⟩
  · exact hc'
  · by_cases hk : (chField w).toNat = k
    · subst hk
      obtain rfl : ch₁ = ch' := Option.some.inj ((channel?_setChannel_same ch₁ hc).symm.trans hc')
      rcases channelEffect_phase he with rfl | h8
      · exact hc
      · omega
    · rwa [emit_channels, channels_setChannel_other s _ ch₁ hk] at hc'

/-- Settles O27: no transition leads to an unused phase, a reset leads to IDLE, and what a step does not touch it keeps. -/
theorem unusedPhasesFault : Obligations.UnusedPhasesFault := by
  unfold Obligations.UnusedPhasesFault
  refine ⟨fun s c b ch hc h9 => exec_effect_error rfl hc (channelEffect_feed_error (feedByte_unused h9)),
    fun s c ch hc _ => ⟨statWord ch, exec_read rfl hc rfl, (statWord_fields ch).1⟩, fun s t k ch' h hc' h9 => ?_,
    fun p ch hch => ?_⟩
  · rcases step_next h with ⟨-, rfl⟩ | ⟨rest, -, rfl⟩ | ⟨w, rest, -, hw⟩
    · exact hc'
    · rw [applyReset_channels, List.getElem?_map] at hc'
      obtain ⟨ch, -, rfl⟩ := Option.map_eq_some_iff.mp hc'
      exact absurd h9 (by simp)
    · exact runWord_unused_phase (s := { s with port := rest }) hw hc' h9
  · obtain rfl := List.eq_of_mem_replicate hch
    exact Nat.zero_le 8

end Sys2Proof.Machine
end

section
/-! Reset and hazards (70_reset_and_hazards.md): no step stops in a state with the invariant (R190), and reset leaves every
channel at its reset values (R180). -/

namespace Sys2Proof.Machine

/-! ### No step stops -/

/-- Settles O41: holding the state and reset always answer, and no word stops a state with the invariant. -/
theorem invariantStepsAreSafe : Obligations.InvariantStepsAreSafe := by
  unfold Obligations.InvariantStepsAreSafe SafeStep
  intro s h
  rcases step_cases s with ⟨-, e⟩ | ⟨rest, -, e⟩ | ⟨w, rest, i, -, -, e⟩ | ⟨w, rest, d, -, -, e⟩
  · exact ⟨_, e⟩
  · exact ⟨_, e⟩
  · have hrest : State.Inv { s with port := rest } := h.congr rfl rfl
    obtain ⟨t, ht⟩ := hrest.exec_next i
    exact ⟨t, e.trans ht⟩
  · exact ⟨_, e⟩

/-! ### What reset leaves -/

theorem step_of_reset {s : State} {rest : List PortEvent} (hp : s.port = .reset :: rest) :
    step s = .next (applyReset { s with port := rest }) := by
  simp only [step, takeEvent, hp]

/-- A channel at power-up is one that reset leaves. -/
theorem eq_resetChannel_of_mem_resetWith {p : Params} {ch : Channel} (h : ch ∈ (State.resetWith p).channels) :
    ch = resetChannel Channel.reset :=
  List.eq_of_mem_replicate h

/-- Settles O34: whatever a channel held, reset leaves the reset values in it, and a channel at power-up is such a one. -/
theorem resetSetsEveryField : Obligations.ResetSetsEveryField := by
  unfold Obligations.ResetSetsEveryField
  intro isReset
  have hreset (ch : Channel) : isReset (resetChannel ch) := ⟨rfl, by simp⟩
  refine ⟨fun s rest hp => ⟨_, step_of_reset hp, applyReset_resp _, applyReset_port _, params_applyReset _, ?_⟩,
    fun p => ⟨params_resetWith p, rfl, ?_⟩⟩
  · intro ch hch
    obtain ⟨ch₀, -, rfl⟩ := List.mem_map.mp hch
    exact hreset ch₀
  · intro ch hch
    obtain rfl := eq_resetChannel_of_mem_resetWith hch
    exact hreset Channel.reset

end Sys2Proof.Machine
end

section
/-! What rests on other rules: a step with nothing presented (60_exceptions.md R174), the corner cases of CHRST and the reads
in IDLE (41_channel_control.md, 42_status_reads.md), and reads between other commands (R141). -/

namespace Sys2Proof.Machine

/-! ### Nothing presented -/

/-- Settles O8: an empty port holds neither of the events that change anything. -/
theorem nothingPresentedHoldsState : Obligations.NothingPresentedHoldsState := by
  unfold Obligations.NothingPresentedHoldsState
  intro s hp
  simp only [step, takeEvent, hp]

/-! ### A channel in IDLE -/

/-- In IDLE every field of a candidate frame has its reset value (10_state.md R37), so ClearFrame changes nothing. -/
theorem Channel.Inv.clearFrame_of_idle {reg : Registry} {ch : Channel} (h : ch.Inv reg) (hp : ch.phase = 0#4) :
    clearFrame ch = ch :=
  (h.reachableFacts.idle_clear hp).symm

theorem statWord_clearFrame (ch : Channel) : statWord (clearFrame ch) = 0x00000000#32 := by
  simp [statWord, flagBit]

theorem crcWord_clearFrame (ch : Channel) : crcWord (clearFrame ch) = 0x0000FFFF#32 := by
  simp [crcWord]

theorem hdrWord_clearFrame (ch : Channel) : hdrWord (clearFrame ch) = 0x00000000#32 := by
  simp [hdrWord]

/-- Settles O12: the channel stored back is the one that was there. -/
theorem chrstInIdleChangesNothing : Obligations.ChrstInIdleChangesNothing := by
  unfold Obligations.ChrstInIdleChangesNothing
  intro s c ch hc hinv hp
  rw [exec_chrst hc, hinv.clearFrame_of_idle hp, setChannel_self hc]
  rfl

/-- Settles O17: the reads answer the words of a cleared channel. -/
theorem readsInIdle : Obligations.ReadsInIdle := by
  unfold Obligations.ReadsInIdle
  intro s c ch hc hinv hp
  have hclear := hinv.clearFrame_of_idle hp
  refine ⟨exec_read rfl hc (congrArg some ?_), exec_read rfl hc (congrArg some ?_), exec_read rfl hc (congrArg some ?_)⟩
  · rw [← hclear, statWord_clearFrame]
  · rw [← hclear, crcWord_clearFrame]
  · rw [← hclear, hdrWord_clearFrame]

/-! ### Reads between commands -/

/-- Settles O19: a read emits a response and does nothing else, and no command reads the last response. -/
theorem readsBetweenFeedsChangeNothing : Obligations.ReadsBetweenFeedsChangeNothing := by
  unfold Obligations.ReadsBetweenFeedsChangeNothing
  intro s t c i j hi h
  obtain ⟨r, rfl⟩ := exec_only_emits (.inr ⟨c, hi⟩) h
  exact exec_emit j s r

end Sys2Proof.Machine
end

section
/-! The byte-wise form of the checksum update (00_scope.md R9): it and the shift loop are linear over XOR, so they agree when
they agree on the registers with one bit set. -/

namespace Sys2Proof.Machine

/-! ### Functions linear over XOR -/

/-- A function of bit vectors that distributes over XOR. -/
def XorLinear {n m : Nat} (f : BitVec n → BitVec m) : Prop := ∀ x y, f (x ^^^ y) = f x ^^^ f y

section
variable {n m : Nat} {f g : BitVec n → BitVec m}

theorem XorLinear.map_zero (hf : XorLinear f) : f 0#n = 0#m := by
  have h := hf 0#n 0#n
  rwa [BitVec.xor_self, BitVec.xor_self] at h

/-- The low `k + 1` bits of a vector are its low `k` bits and its bit `k`. -/
theorem setWidth_setWidth_succ_eq_xor (x : BitVec n) (k : Nat) :
    (x.setWidth (k + 1)).setWidth n = (x.setWidth k).setWidth n ^^^ (x &&& BitVec.twoPow n k) := by
  ext i hi
  simp only [BitVec.getElem_setWidth, BitVec.getElem_xor, BitVec.getElem_and, BitVec.getElem_twoPow,
    BitVec.getLsbD_setWidth]
  rcases Nat.lt_trichotomy i k with h | rfl | h
  · simp [h, Nat.lt_succ_of_lt h, Nat.ne_of_lt h]
  · simp [BitVec.getLsbD_eq_getElem, hi]
  · simp [Nat.lt_asymm h, Nat.not_le_of_lt h, Nat.ne_of_gt h]

/-- Linear functions that agree on the vectors with one bit set agree on every vector. -/
theorem XorLinear.ext (hf : XorLinear f) (hg : XorLinear g)
    (h : ∀ i < n, f (BitVec.twoPow n i) = g (BitVec.twoPow n i)) (x : BitVec n) : f x = g x := by
  have low : ∀ k ≤ n, f ((x.setWidth k).setWidth n) = g ((x.setWidth k).setWidth n) := by
    intro k hk
    induction k with
    | zero =>
      rw [BitVec.of_length_zero (x := x.setWidth 0), BitVec.setWidth_zero, hf.map_zero, hg.map_zero]
    | succ k ih =>
      rw [setWidth_setWidth_succ_eq_xor, BitVec.and_twoPow, hf, hg, ih (Nat.le_of_succ_le hk)]
      split
      · rw [h k hk]
      · rw [hf.map_zero, hg.map_zero]
  simpa only [BitVec.setWidth_eq] using low n le_rfl

end

/-! ### The two forms of the checksum update -/

/-- The byte-wise form, too, reads the byte only as XORed into the low byte of the register. -/
theorem crcAccBytewise_eq (crc : Crc) (b : Byte) :
    crcAccBytewise crc b = crcAccBytewise (crc ^^^ b.setWidth 16) 0#8 := by
  have hhigh : b.setWidth 16 >>> 8 = 0#16 := by
    ext i hi
    simp
  simp [crcAccBytewise, BitVec.ushiftRight_xor_distrib, BitVec.setWidth_xor, hhigh, BitVec.xor_comm]

theorem xorLinear_crcAccBytewise : XorLinear fun x => crcAccBytewise x 0#8 := by
  intro x y
  simp only [crcAccBytewise, BitVec.ushiftRight_xor_distrib, BitVec.shiftLeft_xor_distrib, BitVec.setWidth_xor,
    BitVec.zero_xor]
  ac_rfl

/-- Settles O38: the two forms agree on the sixteen registers with one bit set. -/
theorem crcBytewiseFormAgrees : Obligations.CrcBytewiseFormAgrees := by
  unfold Obligations.CrcBytewiseFormAgrees
  intro crc b
  rw [crcAccBytewise_eq]
  exact xorLinear_crcAccBytewise.ext (crcShifts_xor 8) (by decide) _

end Sys2Proof.Machine
end

section
/-! Building the registry of a catalog (60_exceptions.md R167; 92_eei_decisions.md D4): the registry in canonical form lists
exactly the catalog's entries. -/

namespace Sys2Proof.Machine

section
variable {r r' : Registry} {e f : RegistryEntry} {id : Byte} {d : Descriptor} {catalog : List RegistryEntry}

/-! ### Looking an id up -/

theorem mem_of_registryLookup (h : registryLookup r id = some d) : ⟨id, d⟩ ∈ r := by
  induction r with
  | nil => cases h
  | cons e rest ih =>
    rw [registryLookup] at h
    split at h
    · rename_i he
      obtain rfl := he
      obtain rfl := Option.some.inj h
      exact List.mem_cons_self
    · exact List.mem_cons_of_mem e (ih h)

/-- In canonical form an entry is the only one with its id. -/
theorem registryLookup_of_mem (hr : Registry.wf r) (h : ⟨id, d⟩ ∈ r) : registryLookup r id = some d := by
  induction r with
  | nil => cases h
  | cons e rest ih =>
    obtain ⟨hlt, hrest⟩ := List.pairwise_cons.mp hr
    rw [registryLookup]
    rcases List.mem_cons.mp h with rfl | hmem
    · exact if_pos rfl
    · rw [if_neg fun he => Nat.ne_of_lt (hlt _ hmem) (congrArg BitVec.toNat he), ih hrest hmem]

theorem registryLookup_eq_some_iff (hr : Registry.wf r) : registryLookup r id = some d ↔ ⟨id, d⟩ ∈ r :=
  ⟨mem_of_registryLookup, registryLookup_of_mem hr⟩

theorem id_ne_of_registryLookup_eq_none (h : registryLookup r id = none) : ∀ f ∈ r, f.id ≠ id := by
  induction r with
  | nil => simp
  | cons e rest ih =>
    rw [registryLookup] at h
    split at h
    · cases h
    · rename_i he
      exact List.forall_mem_cons.mpr ⟨he, ih h⟩

/-! ### Registering a descriptor -/

theorem mem_registryInsert : f ∈ registryInsert r e ↔ f = e ∨ f ∈ r := by
  induction r with
  | nil => simp [registryInsert]
  | cons g rest ih =>
    rw [registryInsert]
    split
    · exact List.mem_cons
    · rw [List.mem_cons, ih, List.mem_cons, or_left_comm]

theorem registryInsert_wf (hr : Registry.wf r) (hid : ∀ f ∈ r, f.id ≠ e.id) : Registry.wf (registryInsert r e) := by
  induction r with
  | nil => exact List.pairwise_singleton _ e
  | cons g rest ih =>
    obtain ⟨hlt, hrest⟩ := List.pairwise_cons.mp hr
    obtain ⟨hg, hne⟩ := List.forall_mem_cons.mp hid
    rw [registryInsert]
    split <;> rename_i heg
    · exact List.pairwise_cons.mpr ⟨List.forall_mem_cons.mpr ⟨heg, fun f hf => Nat.lt_trans heg (hlt f hf)⟩, hr⟩
    · refine List.pairwise_cons.mpr ⟨fun f hf => ?_, ih hrest hne⟩
      rcases mem_registryInsert.mp hf with rfl | hf
      · exact Nat.lt_of_le_of_ne (Nat.not_lt.mp heg) fun h => hg (BitVec.eq_of_toNat_eq h)
      · exact hlt f hf

/-- Registering a descriptor keeps the canonical form and adds its entry alone (D4). -/
theorem registryRegister_some (hr : Registry.wf r) (h : registryRegister r e = some r') :
    Registry.wf r' ∧ ∀ f, f ∈ r' ↔ f ∈ r ∨ f = e := by
  unfold registryRegister at h
  split at h
  · rename_i hl
    obtain rfl := Option.some.inj h
    exact ⟨registryInsert_wf hr (id_ne_of_registryLookup_eq_none hl), fun f => mem_registryInsert.trans or_comm⟩
  · rename_i d hl
    split at h
    · rename_i hd
      subst hd
      obtain rfl := Option.some.inj h
      have he := mem_of_registryLookup hl
      exact ⟨hr, fun f => ⟨.inl, fun hf => hf.elim id fun hfe => hfe ▸ he⟩⟩
    · cases h

/-- Registering a descriptor is refused when the registry holds another for its id (R167). -/
theorem registryRegister_none (h : registryRegister r e = none) : ∃ f ∈ r, f.id = e.id ∧ f.desc ≠ e.desc := by
  unfold registryRegister at h
  split at h
  · cases h
  · rename_i d hl
    split at h
    · cases h
    · rename_i hd
      exact ⟨_, mem_of_registryLookup hl, rfl, hd⟩

/-! ### Registering a catalog -/

/-- The catalog holds two different descriptors for one id (D4). -/
def CatalogConflict (catalog : List RegistryEntry) : Prop :=
  ∃ e ∈ catalog, ∃ f ∈ catalog, e.id = f.id ∧ e.desc ≠ f.desc

theorem registryOfCatalog_concat (catalog : List RegistryEntry) (e : RegistryEntry) :
    registryOfCatalog (catalog ++ [e]) = (registryOfCatalog catalog).bind fun r => registryRegister r e := by
  rw [registryOfCatalog, List.foldl_concat, registryOfCatalog]

/-- The registry of a catalog is in canonical form and lists the catalog's entries. -/
theorem registryOfCatalog_some (h : registryOfCatalog catalog = some r) :
    Registry.wf r ∧ ∀ f, f ∈ r ↔ f ∈ catalog := by
  induction catalog using List.reverseRecOn generalizing r with
  | nil =>
    obtain rfl := Option.some.inj h
    exact ⟨List.Pairwise.nil, fun _ => Iff.rfl⟩
  | append_singleton catalog e ih =>
    rw [registryOfCatalog_concat] at h
    obtain ⟨r₀, h₀, hreg⟩ := Option.bind_eq_some_iff.mp h
    obtain ⟨hwf₀, hmem₀⟩ := ih h₀
    obtain ⟨hwf, hmem⟩ := registryRegister_some hwf₀ hreg
    exact ⟨hwf, fun f => by rw [hmem, hmem₀, List.mem_append, List.mem_singleton]⟩

/-- A catalog that is refused holds a conflict: the entry refused, and the one registered before it. -/
theorem conflict_of_registryOfCatalog (h : registryOfCatalog catalog = none) : CatalogConflict catalog := by
  induction catalog using List.reverseRecOn with
  | nil => cases h
  | append_singleton catalog e ih =>
    rw [registryOfCatalog_concat] at h
    cases h₀ : registryOfCatalog catalog with
    | none =>
      obtain ⟨f, hf, g, hg, hfg⟩ := ih h₀
      exact ⟨f, List.mem_append_left _ hf, g, List.mem_append_left _ hg, hfg⟩
    | some r =>
      rw [h₀] at h
      obtain ⟨f, hf, hfe⟩ := registryRegister_none h
      obtain ⟨-, hmem⟩ := registryOfCatalog_some h₀
      exact ⟨f, List.mem_append_left _ ((hmem f).mp hf), e, List.mem_concat_self, hfe⟩

/-- A catalog with a conflict has no registry: in canonical form each id has one descriptor. -/
theorem registryOfCatalog_of_conflict (h : CatalogConflict catalog) : registryOfCatalog catalog = none := by
  obtain ⟨e, he, f, hf, hid, hdesc⟩ := h
  rw [Option.eq_none_iff_forall_ne_some]
  intro r hr
  obtain ⟨hwf, hmem⟩ := registryOfCatalog_some hr
  have hle := registryLookup_of_mem hwf ((hmem e).mpr he)
  have hlf := registryLookup_of_mem hwf ((hmem f).mpr hf)
  rw [hid] at hle
  exact hdesc (Option.some.inj (hle.symm.trans hlf))

end

/-- Settles O49: by induction over the catalog, its registry lists its entries, each id once. -/
theorem registryOfCatalogRefusesConflicts : Obligations.RegistryOfCatalogRefusesConflicts := by
  unfold Obligations.RegistryOfCatalogRefusesConflicts
  refine ⟨fun catalog => ⟨conflict_of_registryOfCatalog, registryOfCatalog_of_conflict⟩, fun catalog r h => ?_⟩
  obtain ⟨hwf, hmem⟩ := registryOfCatalog_some h
  exact ⟨hwf, fun id d => (registryLookup_eq_some_iff hwf).trans (hmem _)⟩

end Sys2Proof.Machine
end
